-- ==== Sys2Proof/Config.lean ====
section
/-! DEFINITION. The constants the source fixes (R5, spec/00_scope.md), the parameters with the values this
model of one built block takes (R6), and the model's one choice of a value (log entry 1). -/

namespace Sys2Proof.Config

/-- Bits per frame (R5). UNVERIFIED literal of the source (U1), log entry 11. -/
abbrev FRAME_BITS : Nat := 40

/-- Bytes in the frame buffer (R5). UNVERIFIED literal (U1), log entry 11. -/
abbrev FRAME_BYTES : Nat := 5

/-- Bits per byte (R5). UNVERIFIED literal (U1), log entry 11. -/
abbrev BYTE_BITS : Nat := 8

/-- The source's `MAX_INTER_BIT_GAP`, in time units (milliseconds): an elapsed time strictly greater is a gap
(R5, D19). UNVERIFIED literal (U1), log entry 11. -/
abbrev MAX_GAP : Nat := 3

/-- Width in bits of `bit_count` (R6, D2). -/
abbrev BCW : Nat := 6

/-- Width in bits of a timestamp and of `last_timestamp` in the built block that `State` describes: the default of
R6 (D1). The block's own definitions take any width. DESIGN CHOICE of the default, log entry 2. -/
abbrev TSW : Nat := 32

/-- The constraint of R6 on a timestamp width: an elapsed value above `MAX_GAP` must be representable. -/
abbrev WidthOk (w : Nat) : Prop := 3 ≤ w

/-- What a byte of the frame buffer that no state lists reads as. The spec gives the buffer no power-up value
(`BUF_INIT`, R22, D5, U6). DESIGN CHOICE, unsafe, log entry 1; no statement rests on it. -/
def unwrittenByte : BitVec 8 := 0xEE#8

end Sys2Proof.Config
end

