-- ==== Sys2Proof/Word.lean ====
section
/-! DEFINITION. The bit-vector types of the block (R7, R10). That the widths written here are those of Config is
`word_widths` of Laws/State.lean. -/

namespace Sys2Proof

/-- One register of the frame buffer (R15): `Config.BYTE_BITS` bits. -/
abbrev Byte := BitVec 8

/-- The bit counter (R11): `Config.BCW` bits. -/
abbrev Count := BitVec 6

/-- A timestamp of `w` bits (R12). -/
abbrev Timestamp (w : Nat) := BitVec w

/-- The command word for timestamps of `w` bits: `op`, `b`, `ts` from the top (R52, R62). -/
abbrev CommandWord (w : Nat) := BitVec (w + 2)

/-- The output `frame[39:0]` (R55): `Config.FRAME_BITS` bits. -/
abbrev FrameWord := BitVec 40

end Sys2Proof
end

