-- ==== Sys2Proof/Syntax.lean ====
section
/-! DEFINITION. The four steps of the block as terms (spec/opcode_table.json, R7, R54) and what the ports show at
one clock edge (R51). -/

namespace Sys2Proof

/-- One step of the block: one constructor per row of spec/opcode_table.json. PROCESS carries its operation-level
operands, a timestamp and a bit, which may be wider than the port's fields (R50, R53, log entry 8). -/
inductive Instr where
  /-- PROCESS (R80): one received bit with its arrival time. -/
  | process (timestamp bit : Nat)
  /-- INIT (R70). -/
  | init
  /-- IDLE (R72): a clock edge with no command. -/
  | idle
  /-- RESET (R140): a clock edge with `rst = 1`. -/
  | reset
  deriving DecidableEq, Repr

/-- The input ports as sampled at one rising edge of `clk` (R51), for timestamps of `w` bits. -/
structure PortSample (w : Nat) where
  /-- Hard reset, active high. -/
  rst : Bool
  /-- The command word is executed at this edge. -/
  cmdValid : Bool
  /-- The command word. -/
  cmd : CommandWord w
  deriving DecidableEq, Repr

/-- The step is a PROCESS: the only step that returns a value (R50, R88). -/
def Instr.isProcess : Instr → Bool
  | .process _ _ => true
  | .init => false
  | .idle => false
  | .reset => false

/-- The line of the notation of R60 for a step, timestamps in decimal. -/
def Instr.text : Instr → String
  | .process timestamp bit => "P " ++ toString timestamp ++ " " ++ toString bit
  | .init => "INIT"
  | .idle => "IDLE"
  | .reset => "RESET"

end Sys2Proof
end

