-- ==== Sys2Proof/WellFormed.lean ====
section
/-! DEFINITION. When a step's operands fit the fields of the command word (R52, R58). A step that is not well formed
still runs: its operands are normalised first (R53). -/

namespace Sys2Proof

/-- The timestamp fits the field `ts` of `w` bits (R52). -/
abbrev TimestampFits (w timestamp : Nat) : Prop := timestamp < 2 ^ w

/-- The bit "is exactly 0 or 1" (R58). -/
abbrev BitFits (bit : Nat) : Prop := bit < 2

/-- The step can be presented on ports with timestamps of `w` bits as it stands. -/
def Instr.wellFormedAt (w : Nat) : Instr → Bool
  | .process timestamp bit => decide (TimestampFits w timestamp) && decide (BitFits bit)
  | .init => true
  | .idle => true
  | .reset => true

/-- Well-formedness for the built block's timestamp width. -/
abbrev WellFormed (i : Instr) : Prop := i.wellFormedAt Config.TSW = true

end Sys2Proof
end

