-- ==== Sys2Proof/Machine/Operands.lean ====
section
/-! DEFINITION. How PROCESS's operands are brought to the port's fields (R53, spec/30_encoding.md). -/

namespace Sys2Proof.Machine

/-- `ts = timestamp mod 2^TSW` (R53, D18). -/
def normTimestamp (w timestamp : Nat) : Timestamp w := BitVec.ofNat w timestamp

/-- `nb = 0 if bit = 0, else 1` (R53, D16). -/
def normBit (bit : Nat) : Bool := bit != 0

end Sys2Proof.Machine
end

