-- ==== Sys2Proof/Machine/State.lean ====
section
/-! DEFINITION. The state of one instance of the block (R10, spec/10_state.md), the reasons a step can stop, and the
state after reset (R22, R140). -/

namespace Sys2Proof.Machine

/-- The frame buffer as the block's one memory (R30): pairs of address and byte, addresses strictly rising, no entry
equal to `Config.unwrittenByte`, which is what an unlisted address reads as (log entry 1). -/
abbrev Memory := List Host.Cell

/-- The state record of R10, for timestamps of `w` bits: the whole state the spec gives one instance. -/
structure Block (w : Nat) where
  /-- How many bits of the current frame have been received (R11). -/
  bitCount : Count
  /-- The timestamp of the most recent PROCESS (R12). -/
  lastTimestamp : Timestamp w
  /-- A previous timestamp exists (R14). -/
  tsValid : Bool
  /-- The frame buffer `buf[0..4]` (R15). -/
  buf : Memory
  /-- The return value of the step taken at the previous edge (R16). -/
  doneQ : Bool
  deriving DecidableEq, Repr

/-- One built block and the inputs that its environment will present. -/
structure State where
  /-- The block's own state (R10). -/
  block : Block Config.TSW
  /-- The model's own field: the port samples of the coming clock edges, the next first (R51, R150).
  DESIGN CHOICE, safe, log entry 3. -/
  inputs : List (PortSample Config.TSW)
  deriving DecidableEq, Repr

/-- Why a step stops with a fault. The block raises no exception (R120), so no step of this model ends here. -/
inductive Fault where
  /-- Raised by `memRead` and `memWrite` alone, for an address outside the five bytes of the frame buffer, which the
  spec says does not exist (R30, R31). No instruction reaches it. Safe, log entry 12. -/
  | outsideFrameBuffer (address : Nat)
  deriving DecidableEq, Repr

/-- Why a step is refused. The block refuses nothing (R122), so no step of this model ends here. -/
inductive Refusal where
  /-- An instruction with no meaning yet; the host's interface asks for it and no arm of `exec` answers it. Safe. -/
  | notModelled (mnemonic : String)
  deriving DecidableEq, Repr

/-- The state after a RESET step (R22, R140), with a frame buffer that lists nothing (log entry 1, DESIGN CHOICE) and
nothing yet presented by the environment (log entry 3, DESIGN CHOICE). -/
def State.reset : State where
  block := { bitCount := 0, lastTimestamp := 0, tsValid := false, buf := [], doneQ := false }
  inputs := []

end Sys2Proof.Machine
end

