-- ==== Sys2Proof/Machine/Flags.lean ====
section
/-! DEFINITION. Every Boolean quantity of R18 (spec/10_state.md) that PROCESS computes, and the count it works with. -/

namespace Sys2Proof.Machine

/-- `elapsed = (ts - last_timestamp) mod 2^TSW` (R82). -/
def elapsed {w : Nat} (last ts : Timestamp w) : Timestamp w := ts - last

/-- `elapsed >u MAX_GAP`: strict and unsigned (R83). -/
def overGap {w : Nat} (last ts : Timestamp w) : Bool := decide (Config.MAX_GAP < (elapsed last ts).toNat)

/-- `gap = (ts_valid = 0) or (elapsed >u MAX_GAP)` (R83). -/
def gap {w : Nat} (tsValid : Bool) (last ts : Timestamp w) : Bool := !tsValid || overGap last ts

/-- `bc0 = 0 if gap else bit_count` (R84). -/
def countAfterGap (g : Bool) (bitCount : Count) : Count := if g then 0 else bitCount

/-- The store enable `st = (bc0 < 40)` (R86, R100). -/
def storeEnable (bc0 : Count) : Bool := decide (bc0.toNat < Config.FRAME_BITS)

/-- `ret = (bc0 + 1 = 40)` for a step that stores (R88). -/
def completes (bc0 : Count) : Bool := decide (bc0.toNat + 1 = Config.FRAME_BITS)

end Sys2Proof.Machine
end

