-- ==== Sys2Proof/Machine/Ops.lean ====
section
/-! DEFINITION. The named operations over the frame buffer and the state record. There is no exception entry and no
return from one to share: the block raises none (R120, R126, R127). -/

namespace Sys2Proof.Machine

/-- The byte a buffer holds at an address; an unlisted one reads as `Config.unwrittenByte` (log entry 1). -/
def Memory.byteAt : Memory → Nat → Byte
  | [], _ => Config.unwrittenByte
  | (b, v) :: rest, a => if b = a then v else Memory.byteAt rest a

/-- The buffer without any entry for an address. -/
def Memory.erase : Memory → Nat → Memory
  | [], _ => []
  | (b, v) :: rest, a => if b = a then Memory.erase rest a else (b, v) :: Memory.erase rest a

/-- The buffer with an entry put before the first greater address. -/
def Memory.insertCell : Memory → Nat → Byte → Memory
  | [], a, v => [(a, v)]
  | (b, u) :: rest, a, v =>
    if a < b then (a, v) :: (b, u) :: rest else (b, u) :: Memory.insertCell rest a v

/-- The buffer after a byte is written, in canonical form. -/
def Memory.put (m : Memory) (a : Nat) (v : Byte) : Memory :=
  if v = Config.unwrittenByte then m.erase a else (m.erase a).insertCell a v

/-- Canonical form from an address on: addresses strictly rising and inside the buffer, no entry that an unlisted
address would read as. -/
def Memory.risingFrom : Nat → Memory → Bool
  | _, [] => true
  | lo, (a, v) :: rest =>
    decide (lo ≤ a) && decide (a < Config.FRAME_BYTES) && (v != Config.unwrittenByte)
      && Memory.risingFrom (a + 1) rest

/-- The canonical form of the frame buffer. -/
def Memory.wf (m : Memory) : Bool := Memory.risingFrom 0 m

/-- The buffer that holds five given bytes, `buf[0]` first: any `BUF_INIT` of D5 is one. -/
def Memory.ofBytes (b0 b1 b2 b3 b4 : Byte) : Memory :=
  Memory.put (Memory.put (Memory.put (Memory.put (Memory.put [] 0 b0) 1 b1) 2 b2) 3 b3) 4 b4

/-- `MemRead(addr, 1)` (R7, R30). -/
def memRead (m : Memory) (a : Nat) : Except Fault Byte :=
  if a < Config.FRAME_BYTES then .ok (m.byteAt a) else .error (.outsideFrameBuffer a)

/-- `MemWrite(addr, 1, v)` (R7, R30). -/
def memWrite (m : Memory) (a : Nat) (v : Byte) : Except Fault Memory :=
  if a < Config.FRAME_BYTES then .ok (m.put a v) else .error (.outsideFrameBuffer a)

/-- `((old << 1) | nb) mod 256` (R86): old[6:0] moves up, `nb` enters at bit 0, old[7] is lost. -/
def shiftIn (old : Byte) (nb : Bool) : Byte := (old <<< 1) ||| (if nb then 1 else 0)

/-- The byte select `idx = bc0 div 8` (R86, R100). -/
def byteIndex (bc0 : Count) : Nat := bc0.toNat / Config.BYTE_BITS

/-- The read-modify-write of R86 on the byte that `bc0` selects. -/
def shiftBuffer (m : Memory) (bc0 : Count) (nb : Bool) : Except Fault Memory :=
  match memRead m (byteIndex bc0) with
  | .error e => .error e
  | .ok old => memWrite m (byteIndex bc0) (shiftIn old nb)

variable {w : Nat}

/-- The optional timestamp that `ts_valid` and `last_timestamp` stand for (R14). -/
def Block.previous (r : Block w) : Option (Timestamp w) := if r.tsValid then some r.lastTimestamp else none

/-- The gap condition of a PROCESS with this timestamp field at this state (R83). -/
def Block.gapAt (r : Block w) (ts : Timestamp w) : Bool := gap r.tsValid r.lastTimestamp ts

/-- `bc0` of a PROCESS with this timestamp field at this state (R84). -/
def Block.countAt (r : Block w) (ts : Timestamp w) : Count := countAfterGap (r.gapAt ts) r.bitCount

/-- The address that a PROCESS with this timestamp field stores to at this state: none when it absorbs its bit
(R86, R87). -/
def Block.storeAddress (r : Block w) (ts : Timestamp w) : Option Nat :=
  if storeEnable (r.countAt ts) then some (byteIndex (r.countAt ts)) else none

/-- Step 2 of PROCESS: `last_timestamp <- ts`, `ts_valid <- 1` (R85). -/
def Block.stamp (r : Block w) (ts : Timestamp w) : Block w := { r with lastTimestamp := ts, tsValid := true }

/-- The effect shared by INIT and RESET (R70, R140, R142): all but the frame buffer is cleared. -/
def Block.clear (r : Block w) : Block w :=
  { r with bitCount := 0, tsValid := false, lastTimestamp := 0, doneQ := false }

/-- A block-level effect as an effect on the whole state; the coming inputs are left as they are. -/
def State.onBlock (s : State) (f : Block Config.TSW → Host.Outcome (Block Config.TSW) Fault Refusal) :
    Host.Outcome State Fault Refusal :=
  match f s.block with
  | .next b => .next { s with block := b }
  | .fault e => .fault e
  | .refused e => .refused e

end Sys2Proof.Machine
end

