-- ==== Sys2Proof/Machine/Process.lean ====
section
/-! DEFINITION. PROCESS (R80, spec/41_process.md). -/

namespace Sys2Proof.Machine

variable {w : Nat}

/-- The store of PROCESS at the count `bc0 < 40` (R86), with the return value of R88. -/
def Block.store (r : Block w) (bc0 : Count) (nb : Bool) : Host.Outcome (Block w) Fault Refusal :=
  match shiftBuffer r.buf bc0 nb with
  | .error e => .fault e
  | .ok m => .next { r with buf := m, bitCount := bc0 + 1, doneQ := completes bc0 }

/-- The absorb of PROCESS in COMPLETE without a gap (R87). The count is written as 40, as R80's pseudocode has it:
in every reachable state that leaves it unchanged (R23, log entry 9, DEDUCED). -/
def Block.absorb (r : Block w) : Block w :=
  { r with bitCount := BitVec.ofNat 6 Config.FRAME_BITS, doneQ := false }

/-- PROCESS at the block, for any timestamp width (R80): gap test against the old `last_timestamp`, timestamp record,
then store or absorb with the count after the gap test (R89). -/
def Block.process (timestamp bit : Nat) (r : Block w) : Host.Outcome (Block w) Fault Refusal :=
  let ts := normTimestamp w timestamp
  let bc0 := r.countAt ts
  if storeEnable bc0 then (r.stamp ts).store bc0 (normBit bit)
  else .next (r.stamp ts).absorb

/-- PROCESS (R80). -/
def execProcess (timestamp bit : Nat) (s : State) : Host.Outcome State Fault Refusal :=
  s.onBlock (Block.process timestamp bit)

end Sys2Proof.Machine
end

