-- ==== Sys2Proof/Machine/Control.lean ====
section
/-! DEFINITION. INIT, IDLE (spec/40_init.md) and RESET (spec/70_reset_and_hazards.md), and the four steps together
at the block. -/

namespace Sys2Proof.Machine

variable {w : Nat}

/-- INIT at the block (R70). -/
def Block.init (r : Block w) : Host.Outcome (Block w) Fault Refusal := .next r.clear

/-- IDLE at the block (R72): only `done_q <- 0`. -/
def Block.idle (r : Block w) : Host.Outcome (Block w) Fault Refusal := .next { r with doneQ := false }

/-- RESET at the block (R140). -/
def Block.hardReset (r : Block w) : Host.Outcome (Block w) Fault Refusal := .next r.clear

/-- INIT (R70). -/
def execInit (s : State) : Host.Outcome State Fault Refusal := s.onBlock Block.init

/-- IDLE (R72). -/
def execIdle (s : State) : Host.Outcome State Fault Refusal := s.onBlock Block.idle

/-- RESET (R140). -/
def execReset (s : State) : Host.Outcome State Fault Refusal := s.onBlock Block.hardReset

/-- Any step at the block, for any timestamp width (R7, R112). -/
def Block.exec (i : Instr) (r : Block w) : Host.Outcome (Block w) Fault Refusal :=
  match i with
  | .process timestamp bit => r.process timestamp bit
  | .init => r.init
  | .idle => r.idle
  | .reset => r.hardReset

end Sys2Proof.Machine
end

