-- ==== Sys2Proof/Machine/Dispatch.lean ====
section
/-! DEFINITION. One arm per instruction. -/

namespace Sys2Proof.Machine

def exec (i : Instr) (s : State) : Host.Outcome State Fault Refusal :=
  match i with
  | .process timestamp bit => Sys2Proof.Machine.execProcess timestamp bit s
  | .init => Sys2Proof.Machine.execInit s
  | .idle => Sys2Proof.Machine.execIdle s
  | .reset => Sys2Proof.Machine.execReset s

end Sys2Proof.Machine
end

