-- ==== Sys2Proof/Decode.lean ====
section
/-! DEFINITION. From what the ports show to a step, and back (R52, R54, R57, R62, spec/30_encoding.md). -/

namespace Sys2Proof

/-- Why a number is no command word. -/
inductive DecodeError where
  /-- The number has a bit above the port's `TSW + 2` wires (R51); no encoding of the port's width is refused
  (R57). Safe, log entry 7. -/
  | widerThanPort (word : Nat)
  deriving DecidableEq, Repr

/-- The field `op` of a command word, `cmd[TSW+1]` (R52). -/
def opField {w : Nat} (cmd : CommandWord w) : Bool := cmd.getLsbD (w + 1)

/-- The field `b` of a command word, `cmd[TSW]` (R52). -/
def bitField {w : Nat} (cmd : CommandWord w) : Bool := cmd.getLsbD w

/-- The field `ts` of a command word, `cmd[TSW-1:0]`, taken as it stands (R52, R53). -/
def timestampField {w : Nat} (cmd : CommandWord w) : Timestamp w := cmd.setWidth w

/-- The command-word decoder: total, `op = 0` gives PROCESS and `op = 1` gives INIT (R57). -/
def decodeCommand {w : Nat} (cmd : CommandWord w) : Instr :=
  if opField cmd then .init
  else .process (timestampField cmd).toNat (bitField cmd).toNat

/-- The step a clock edge takes (R54, R150): RESET if `rst = 1`, else the command if `cmd_valid = 1`, else IDLE. -/
def decodePorts {w : Nat} (p : PortSample w) : Instr :=
  if p.rst then .reset
  else if p.cmdValid then decodeCommand p.cmd
  else .idle

/-- The command word of a bit string given as a number, bit 0 least significant, or a refusal by name when it has
a bit for which the port has no wire (log entry 7). -/
def commandOfNat (w word : Nat) : Except DecodeError (CommandWord w) :=
  if word < 2 ^ (w + 2) then .ok (BitVec.ofNat (w + 2) word) else .error (.widerThanPort word)

/-- The step that a bit string given as a number stands for. -/
def decodeNat (w word : Nat) : Except DecodeError Instr :=
  match commandOfNat w word with
  | .ok cmd => .ok (decodeCommand cmd)
  | .error e => .error e

/-- The command word of `P ts b`: `b * 2^TSW + ts`, after the normalisation of R53 (R54, R62). -/
def processWord (w timestamp bit : Nat) : CommandWord w :=
  BitVec.ofNat (w + 2)
    ((Machine.normBit bit).toNat * 2 ^ w + (Machine.normTimestamp w timestamp).toNat)

/-- The canonical command word of INIT: `2^(TSW+1)`, ignored bits 0 (R54, R57, R62). -/
def initWord (w : Nat) : CommandWord w := BitVec.ofNat (w + 2) (2 ^ (w + 1))

/-- The command word of a step that has one; IDLE and RESET have none (R54). -/
def encodeCommand (w : Nat) : Instr → Option (CommandWord w)
  | .process timestamp bit => some (processWord w timestamp bit)
  | .init => some (initWord w)
  | .idle => none
  | .reset => none

/-- The ports of an edge at which a command word is executed (R51). -/
def commandSample {w : Nat} (cmd : CommandWord w) : PortSample w :=
  { rst := false, cmdValid := true, cmd := cmd }

/-- The ports of an IDLE edge, the ignored word 0 (R54). -/
def idleSample (w : Nat) : PortSample w := { rst := false, cmdValid := false, cmd := 0 }

/-- The ports of a RESET edge, the ignored inputs 0 (R54). -/
def resetSample (w : Nat) : PortSample w := { rst := true, cmdValid := false, cmd := 0 }

/-- What the environment presents at the ports for a step (R51, R54). -/
def encode (w : Nat) : Instr → PortSample w
  | .process timestamp bit => commandSample (processWord w timestamp bit)
  | .init => commandSample (initWord w)
  | .idle => idleSample w
  | .reset => resetSample w

/-- The ports for a bit string of `nbits` bits as spec/opcode_table.json numbers it. A row of no bits has no command
word (`"width": 0`), so its edge presents none (log entry 6). -/
def tableSample (nbits word : Nat) : PortSample Config.TSW :=
  if nbits = 0 then idleSample Config.TSW
  else commandSample (BitVec.ofNat (Config.TSW + 2) word)

/-- The step the decoder reads from a bit string of `nbits` bits as spec/opcode_table.json numbers it. The port takes
the bits as they are numbered: there is no byte order (R52, log entries 6 and 7). -/
def decodeTableWord (nbits w : Nat) : Option Instr :=
  if nbits = 0 then some (decodePorts (tableSample nbits w))
  else
    match decodeNat Config.TSW w with
    | .ok i => some i
    | .error _ => none

end Sys2Proof
end

