-- ==== Sys2Proof/Machine/Ports.lean ====
section
/-! DEFINITION. What a step samples at its clock edge (R51, R150) and the inputs that are left. -/

namespace Sys2Proof.Machine

/-- The ports at the next edge: what the environment presents, or no command when it presents nothing
(R72, log entry 4, DEDUCED). -/
def State.sample (s : State) : PortSample Config.TSW :=
  match s.inputs with
  | [] => idleSample Config.TSW
  | p :: _ => p

/-- The state once the next edge's sample is taken. -/
def State.afterSample (s : State) : State := { s with inputs := s.inputs.tail }

/-- The state whose next edge samples `p`, everything presented before coming one edge later. -/
def State.present (s : State) (p : PortSample Config.TSW) : State := { s with inputs := p :: s.inputs }

end Sys2Proof.Machine
end

