-- ==== Sys2Proof/Machine/Step.lean ====
section
/-! DEFINITION. One rising edge of `clk` (R150, spec/70_reset_and_hazards.md). -/

namespace Sys2Proof.Machine

/-- Exactly one step happens at each rising edge: the one the sampled ports select (R150). -/
def step (s : State) : Host.Outcome State Fault Refusal :=
  exec (decodePorts s.sample) s.afterSample

/-- `s` with the instruction of an opcode-table word presented at the next edge (log entries 5 and 6). -/
def State.withFetchWord (s : State) (nbits w : Nat) : State := s.present (tableSample nbits w)

end Sys2Proof.Machine
end

