-- ==== Sys2Proof/Machine/Instances.lean ====
section
/-! DEFINITION. Several instances of the block as a product of independent copies (R131, spec/60_exceptions.md). -/

namespace Sys2Proof.Machine

/-- Several decoders, each with its own state record and its own ports. -/
abbrev Instances := List State

/-- One clock edge of the instance with this position; there is no step of an instance that does not exist, and the
others are not touched (log entry 15). -/
def Instances.stepAt (sys : Instances) (k : Nat) : Host.Outcome Instances Fault Refusal :=
  match sys[k]? with
  | none => .next sys
  | some s =>
    match step s with
    | .next s' => .next (sys.set k s')
    | .fault e => .fault e
    | .refused e => .refused e

end Sys2Proof.Machine
end

