-- ==== Sys2Proof/Machine/Outputs.lean ====
section
/-! DEFINITION. The output ports (R51, R55, R56, spec/30_encoding.md) and the FSM state name (R8, R101). -/

namespace Sys2Proof.Machine

/-- The FSM state names of R8 and R101. -/
inductive FsmState where
  /-- `bit_count = 0`. -/
  | empty
  /-- `0 < bit_count < 40`. -/
  | accumulating
  /-- `bit_count = 40`. -/
  | complete
  deriving DecidableEq, Repr

/-- The output ports in one clock cycle (R51). -/
structure Outputs where
  /-- The frame buffer (R55). -/
  frame : FrameWord
  /-- The return value of the previous edge's step (R56). -/
  frameDone : Bool
  /-- The FSM is in COMPLETE (R56). -/
  frameValid : Bool
  /-- The state `bit_count` (R56). -/
  bitCount : Count
  deriving DecidableEq, Repr

variable {w : Nat}

/-- The byte `buf[a]` (R7, R15). -/
def Block.bufAt (r : Block w) (a : Nat) : Byte := r.buf.byteAt a

/-- `frame = { buf[0], buf[1], buf[2], buf[3], buf[4] }` (R55). -/
def Block.frame (r : Block w) : FrameWord :=
  r.bufAt 0 ++ r.bufAt 1 ++ r.bufAt 2 ++ r.bufAt 3 ++ r.bufAt 4

/-- `frame_valid = 1` if `bit_count = 40`, else 0 (R56). -/
def Block.frameValid (r : Block w) : Bool := decide (r.bitCount.toNat = Config.FRAME_BITS)

/-- The FSM state name, a function of `bit_count` alone (R8). A count above 40, which no run reaches (R11), is given
the last name (log entry 9). -/
def Block.fsmState (r : Block w) : FsmState :=
  if r.bitCount.toNat = 0 then .empty
  else if r.bitCount.toNat < Config.FRAME_BITS then .accumulating
  else .complete

/-- What the consumer samples in the cycle after the edge that left this state (R56, R150). -/
def Block.outputs (r : Block w) : Outputs where
  frame := r.frame
  frameDone := r.doneQ
  frameValid := r.frameValid
  bitCount := r.bitCount

/-- The built block's output ports. -/
def State.outputs (s : State) : Outputs := s.block.outputs

end Sys2Proof.Machine
end

