-- ==== Sys2Proof/Machine/Streams.lean ====
section
/-! DEFINITION. Command streams: the pseudo-operations of the notation (R61, spec/30_encoding.md), runs of the block
over a stream, and the words the laws of spec/42_state_machine.md use of a stream. -/

namespace Sys2Proof.Machine

variable {w : Nat}

/-- `BITS <ts0> <dt> <n> <b>`: `n` PROCESS steps `dt` apart, timestamps modulo `2^TSW` (R61). -/
def bitsOp (w ts0 dt n b : Nat) : List Instr :=
  (List.range n).map fun k => .process ((ts0 + k * dt) % 2 ^ w) b

/-- `BYTE <ts0> <dt> <v>`: the bits of `v`, most significant first (R61). -/
def byteOp (w ts0 dt : Nat) (v : Byte) : List Instr :=
  (List.range Config.BYTE_BITS).map fun j =>
    .process ((ts0 + j * dt) % 2 ^ w) (v.getLsbD (Config.BYTE_BITS - 1 - j)).toNat

/-- `FRAME <ts0> <dt> <v0> .. <v4>`: one BYTE per byte, in the order given (R61). -/
def frameOp (w ts0 dt : Nat) : List Byte → List Instr
  | [] => []
  | v :: vs => byteOp w ts0 dt v ++ frameOp w (ts0 + Config.BYTE_BITS * dt) dt vs

/-- The block after a stream of steps, taken one after another (R39). -/
def Block.run : List Instr → Block w → Host.Outcome (Block w) Fault Refusal
  | [], r => .next r
  | i :: l, r =>
    match r.exec i with
    | .next r' => Block.run l r'
    | .fault e => .fault e
    | .refused e => .refused e

/-- The return values of the PROCESS steps of a stream, in order (R50, R88): each is in `done_q` after its step. -/
def Block.returns : List Instr → Block w → List Bool
  | [], _ => []
  | i :: l, r =>
    match r.exec i with
    | .next r' => if i.isProcess then r'.doneQ :: Block.returns l r' else Block.returns l r'
    | .fault _ => []
    | .refused _ => []

/-- The output ports in the cycle after each step of a stream (R150). -/
def Block.trace : List Instr → Block w → List Outputs
  | [], _ => []
  | i :: l, r =>
    match r.exec i with
    | .next r' => r'.outputs :: Block.trace l r'
    | .fault _ => []
    | .refused _ => []

/-- The normalised bits of a stream's PROCESS steps, in order of arrival (R53, R106). -/
def streamBits : List Instr → List Bool
  | [] => []
  | .process _ bit :: l => normBit bit :: streamBits l
  | .init :: l => streamBits l
  | .idle :: l => streamBits l
  | .reset :: l => streamBits l

/-- The timestamp of the last PROCESS of a stream, or `last` when it has none. -/
def lastStamp (last : Timestamp w) : List Instr → Timestamp w
  | [] => last
  | .process timestamp _ :: l => lastStamp (normTimestamp w timestamp) l
  | .init :: l => lastStamp last l
  | .idle :: l => lastStamp last l
  | .reset :: l => lastStamp last l

/-- No gap between the previous timestamp, where there is one, and this one: `(ts - last) mod 2^TSW <= 3` (R105). -/
def noGapAfter (prev : Option (Timestamp w)) (ts : Timestamp w) : Bool :=
  match prev with
  | none => true
  | some last => !overGap last ts

/-- A stream with no INIT and no RESET, IDLE steps freely among its PROCESS steps, and no gap between consecutive
PROCESS steps, the first one measured from `prev` where there is one (R105). -/
def unbroken : Option (Timestamp w) → List Instr → Bool
  | _, [] => true
  | prev, .process timestamp _ :: l =>
    noGapAfter prev (normTimestamp w timestamp) && unbroken (some (normTimestamp w timestamp)) l
  | _, .init :: _ => false
  | prev, .idle :: l => unbroken prev l
  | _, .reset :: _ => false

/-- What has been received of the current frame: its bits in order of arrival, and the addresses written, both
counted from the last detected gap, INIT or RESET (R32, R33). Not state: a record of the run that claims speak of. -/
structure FrameLog where
  /-- The frame's bits, bit number 0 first (R33). -/
  bits : List Bool
  /-- The addresses stored to, oldest first (R32). -/
  touched : List Nat
  deriving DecidableEq, Repr

/-- The log of a frame of which nothing has been received. -/
def FrameLog.start : FrameLog := { bits := [], touched := [] }

/-- The log after a step taken at the state `r`. -/
def FrameLog.after (r : Block w) : Instr → FrameLog → FrameLog
  | .process timestamp bit, g =>
    let ts := normTimestamp w timestamp
    let g0 := if r.gapAt ts then FrameLog.start else g
    match r.storeAddress ts with
    | some a => { bits := g0.bits ++ [normBit bit], touched := g0.touched ++ [a] }
    | none => g0
  | .init, _ => FrameLog.start
  | .idle, g => g
  | .reset, _ => FrameLog.start

/-- The block and the log of its current frame after a stream of steps. -/
def Block.runLogged : List Instr → Block w × FrameLog → Host.Outcome (Block w × FrameLog) Fault Refusal
  | [], p => .next p
  | i :: l, p =>
    match p.1.exec i with
    | .next r' => Block.runLogged l (r', FrameLog.after p.1 i p.2)
    | .fault e => .fault e
    | .refused e => .refused e

end Sys2Proof.Machine
end

