-- ==== Sys2Proof/Safety.lean ====
section
/-! DEFINITION. What counts as a sound state and a safe step, in the terms claims use (R23, R120, R122). -/

namespace Sys2Proof

open Machine

/-- The next state of an outcome, if it is one. -/
def Outcome.next? {σ φ ρ : Type} : Host.Outcome σ φ ρ → Option σ
  | .next s => some s
  | .fault _ => none
  | .refused _ => none

/-- A step that completes: neither fault, nor stuck, nor refused (R122). -/
def Outcome.Completes {σ φ ρ : Type} (o : Host.Outcome σ φ ρ) : Prop := ∃ s, o = .next s

namespace Machine

variable {w : Nat}

/-- The invariants of R23, and the canonical form of the frame buffer. -/
structure Block.Inv (r : Block w) : Prop where
  /-- R23 (a). -/
  count_le : r.bitCount.toNat ≤ Config.FRAME_BITS
  /-- R23 (b). -/
  valid_iff : r.tsValid = false ↔ r.bitCount.toNat = 0
  /-- R23 (c). -/
  done_count : r.doneQ = true → r.bitCount.toNat = Config.FRAME_BITS
  /-- The frame buffer keeps its canonical form: in particular no address above 4 is ever listed (R31). -/
  buf_wf : r.buf.wf = true

/-- How many bits of byte `i` have arrived when `n` bits of the frame have (R34). -/
def bitsInByte (n i : Nat) : Nat := min Config.BYTE_BITS (n - Config.BYTE_BITS * i)

/-- The buffer holds the bits of the current frame where R33 and R34 say: bit number `k` in byte `k div 8`, the latest
bit of a byte at its bit 0. -/
def Block.Packed (r : Block w) (bits : List Bool) : Prop :=
  bits.length = r.bitCount.toNat ∧
  ∀ k b, bits[k]? = some b →
    (r.bufAt (k / Config.BYTE_BITS)).getLsbD
      (bitsInByte bits.length (k / Config.BYTE_BITS) - 1 - k % Config.BYTE_BITS) = b

/-- The number whose binary digits are the bits given, first bit most significant:
`sum over k of x_k * 2^(n-1-k)` (R106). -/
def msbFirst (bits : List Bool) : Nat :=
  ((List.range bits.length).map fun k => (bits.getD k false).toNat * 2 ^ (bits.length - 1 - k)).sum

end Machine

end Sys2Proof
end

