-- ==== Sys2Proof/Certificates/Slice0/Obligations.lean ====
section
/-! DEFINITION. The statements for the provers, from the numbered rules of spec/. A statement over `Block w` holds for
every timestamp width of R6 that its text names; one over `State` is about the built block. No statement rests on the
contents of the frame buffer at reset (log entry 1). -/

open Sys2Proof Sys2Proof.Machine

/-! ### Encoding and the step -/

/-- R52, R54, R57, R62: what the ports show for a well-formed step is read back as that step, for every timestamp
width and every operand. -/
def Obligations.DecodeEncodeAgree : Prop :=
  ∀ (w : Nat) (i : Instr), i.wellFormedAt w = true → decodePorts (encode w i) = i

/-- R57: every command word is legal, `op = 0` gives PROCESS with the word's own fields, `op = 1` gives INIT whatever
the other bits are, and the canonical INIT word has them 0. -/
def Obligations.EveryCommandWordIsLegal : Prop :=
  ∀ (w : Nat) (cmd : CommandWord w),
    (cmd.toNat < 2 ^ (w + 1) → decodeCommand cmd = .process (cmd.toNat % 2 ^ w) (cmd.toNat / 2 ^ w)) ∧
    (2 ^ (w + 1) ≤ cmd.toNat → decodeCommand cmd = .init) ∧
    (decodeCommand cmd).wellFormedAt w = true ∧
    (initWord w).toNat = 2 ^ (w + 1)

/-- R54, R57: decoding then encoding is the identity on PROCESS words and maps every INIT word to the canonical one. -/
def Obligations.ReencodedWordIsCanonical : Prop :=
  ∀ (w : Nat) (cmd : CommandWord w),
    (opField cmd = false → encodeCommand w (decodeCommand cmd) = some cmd) ∧
    (opField cmd = true → encodeCommand w (decodeCommand cmd) = some (initWord w))

/-- R54: words written out from the encoding, vectors EN1 to EN9, and the priorities of EN10 to EN12. -/
def Obligations.VectorsDecode : Prop :=
  decodeTableWord 40 0x000000000 = some (.process 0 0) ∧
  decodeTableWord 40 0x100000000 = some (.process 0 1) ∧
  decodeTableWord 40 0x0000003E8 = some (.process 1000 0) ∧
  decodeTableWord 40 0x1000003E8 = some (.process 1000 1) ∧
  decodeTableWord 40 0x0FFFFFFFF = some (.process 0xFFFFFFFF 0) ∧
  decodeTableWord 40 0x1FFFFFFFF = some (.process 0xFFFFFFFF 1) ∧
  decodeTableWord 40 0x200000000 = some .init ∧
  decodeTableWord 40 0x3FFFFFFFF = some .init ∧
  decodeTableWord 40 0x2000003E8 = some .init ∧
  decodePorts (w := 32) { rst := false, cmdValid := false, cmd := 0x1000003E8 } = .idle ∧
  decodePorts (w := 32) { rst := true, cmdValid := true, cmd := 0x1000003E8 } = .reset ∧
  decodePorts (w := 32) { rst := true, cmdValid := false, cmd := 0x200000000 } = .reset

/-- R51, R54, R150: at each edge exactly one step happens, RESET if `rst = 1`, else the command's if `cmd_valid = 1`,
else IDLE; and a well-formed instruction presented at the ports is the one that runs. The coming samples move up by
one. -/
def Obligations.StepRunsTheSampledInstruction : Prop :=
  (∀ (s : State) (p : PortSample Config.TSW) (rest : List (PortSample Config.TSW)), s.inputs = p :: rest →
    (p.rst = true → step s = exec .reset { s with inputs := rest }) ∧
    (p.rst = false → p.cmdValid = true → step s = exec (decodeCommand p.cmd) { s with inputs := rest }) ∧
    (p.rst = false → p.cmdValid = false → step s = exec .idle { s with inputs := rest })) ∧
  (∀ (s : State) (i : Instr) (rest : List (PortSample Config.TSW)), WellFormed i →
    s.inputs = encode Config.TSW i :: rest → step s = exec i { s with inputs := rest })

/-- The model's choice of log entry 4, read from R72: an edge at which the environment presents nothing is IDLE. -/
def Obligations.NothingPresentedIsIdle : Prop :=
  ∀ s : State, s.inputs = [] → step s = .next { s with block := { s.block with doneQ := false } }

/-- The model's choice of log entries 5 and 6: a table word placed at the ports is the next step's instruction. -/
def Obligations.PlacedTableWordRuns : Prop :=
  ∀ (s : State) (nbits w : Nat) (i : Instr), decodeTableWord nbits w = some i →
    step (s.withFetchWord nbits w) = exec i s

/-- R53: `ts = timestamp mod 2^TSW` and `nb = 0 if bit = 0, else 1`, before anything else is computed; on the 1-bit
port `nb = b`; the field `ts` of a word is taken as it stands. -/
def Obligations.OperandsAreNormalised : Prop :=
  (∀ w timestamp : Nat, (normTimestamp w timestamp).toNat = timestamp % 2 ^ w) ∧
  (∀ bit : Nat, normBit bit = false ↔ bit = 0) ∧
  (∀ b : Bool, normBit b.toNat = b) ∧
  (∀ (w : Nat) (r : Block w) (timestamp bit : Nat),
    r.exec (.process timestamp bit) = r.exec (.process (timestamp % 2 ^ w) (if bit = 0 then 0 else 1))) ∧
  (∀ (s : State) (timestamp bit : Nat),
    exec (.process timestamp bit) s = exec (.process (timestamp % 2 ^ Config.TSW) (if bit = 0 then 0 else 1)) s) ∧
  (∀ (w : Nat) (cmd : CommandWord w), (timestampField cmd).toNat = cmd.toNat % 2 ^ w)

/-! ### PROCESS -/

/-- R80, the pseudocode, for the built block: PROCESS completes from every state, with every operand. The else branch
is taken as the pseudocode has it for every count that does not enable a store, although no run reaches one above 40
(log entry 9). -/
def Obligations.ProcessFollowsPseudocode : Prop :=
  ∀ (s : State) (timestamp bit ts nb elapsed bc0 : Nat),
    ts = timestamp % 2 ^ 32 →
    nb = (if bit = 0 then 0 else 1) →
    elapsed = (ts + 2 ^ 32 - s.block.lastTimestamp.toNat) % 2 ^ 32 →
    bc0 = (if s.block.tsValid = false ∨ 3 < elapsed then 0 else s.block.bitCount.toNat) →
    ∃ s' : State, exec (.process timestamp bit) s = .next s' ∧
      s'.block.lastTimestamp.toNat = ts ∧ s'.block.tsValid = true ∧ s'.inputs = s.inputs ∧
      (bc0 < 40 →
        (s'.block.bufAt (bc0 / 8)).toNat = (2 * (s.block.bufAt (bc0 / 8)).toNat + nb) % 256 ∧
        (∀ a, a ≠ bc0 / 8 → s'.block.bufAt a = s.block.bufAt a) ∧
        s'.block.bitCount.toNat = bc0 + 1 ∧
        (s'.block.doneQ = true ↔ bc0 + 1 = 40)) ∧
      (¬ bc0 < 40 →
        (∀ a, s'.block.bufAt a = s.block.bufAt a) ∧ s'.block.bitCount.toNat = 40 ∧ s'.block.doneQ = false)

/-- R92: the four cases of PROCESS, for every timestamp width. `bc = 0` without a gap falls under case B, as the
rule's last paragraph has it. -/
def Obligations.ProcessHasFourCases : Prop :=
  ∀ (w : Nat) (r : Block w) (timestamp bit : Nat), ∃ r' : Block w,
    r.exec (.process timestamp bit) = .next r' ∧
    r'.lastTimestamp = normTimestamp w timestamp ∧ r'.tsValid = true ∧
    (r.gapAt (normTimestamp w timestamp) = true →
      r'.bitCount = 1 ∧ r'.bufAt 0 = shiftIn (r.bufAt 0) (normBit bit) ∧ (∀ a, a ≠ 0 → r'.bufAt a = r.bufAt a) ∧
      r'.doneQ = false ∧ r'.fsmState = .accumulating) ∧
    (r.gapAt (normTimestamp w timestamp) = false → r.bitCount.toNat ≤ 38 →
      r'.bitCount.toNat = r.bitCount.toNat + 1 ∧
      r'.bufAt (r.bitCount.toNat / 8) = shiftIn (r.bufAt (r.bitCount.toNat / 8)) (normBit bit) ∧
      (∀ a, a ≠ r.bitCount.toNat / 8 → r'.bufAt a = r.bufAt a) ∧
      r'.doneQ = false ∧ r'.fsmState = .accumulating) ∧
    (r.gapAt (normTimestamp w timestamp) = false → r.bitCount.toNat = 39 →
      r'.bitCount.toNat = 40 ∧ r'.bufAt 4 = shiftIn (r.bufAt 4) (normBit bit) ∧
      (∀ a, a ≠ 4 → r'.bufAt a = r.bufAt a) ∧ r'.doneQ = true ∧ r'.fsmState = .complete) ∧
    (r.gapAt (normTimestamp w timestamp) = false → r.bitCount.toNat = 40 →
      r'.bitCount.toNat = 40 ∧ r'.buf = r.buf ∧ r'.doneQ = false ∧ r'.fsmState = .complete)

/-- R36, R86, R87: the frame of PROCESS. Every byte but the one at the computed address reads as before, all of them
when the bit is absorbed, and the coming inputs are untouched; the count is untouched too when the bit is absorbed in
COMPLETE. -/
def Obligations.ProcessFrame : Prop :=
  ∀ (s s' : State) (timestamp bit : Nat), exec (.process timestamp bit) s = .next s' →
    s'.inputs = s.inputs ∧
    (∀ a, s.block.storeAddress (normTimestamp Config.TSW timestamp) = some a →
      ∀ a', a' ≠ a → s'.block.bufAt a' = s.block.bufAt a') ∧
    (s.block.storeAddress (normTimestamp Config.TSW timestamp) = none →
      (∀ a', s'.block.bufAt a' = s.block.bufAt a') ∧
      (s.block.bitCount.toNat = 40 → s'.block.bitCount = s.block.bitCount))

/-- R88: a PROCESS returns 1 exactly when it begins with `bit_count = 39`, detects no gap and stores the 40th bit; a
step that detects a gap never returns 1. -/
def Obligations.ReturnsOneExactlyAtFortiethBit : Prop :=
  ∀ (w : Nat) (r r' : Block w) (timestamp bit : Nat), r.exec (.process timestamp bit) = .next r' →
    (r'.doneQ = true ↔ r.bitCount.toNat = 39 ∧ r.gapAt (normTimestamp w timestamp) = false) ∧
    (r.gapAt (normTimestamp w timestamp) = true → r'.doneQ = false ∧ r'.bitCount = 1)

/-- R109: a PROCESS that detects a gap ends with `bit_count = 1` whatever it was, the earlier bits stay in the buffer
(moved up by one place in byte 0), and no output reports the discard. -/
def Obligations.GapDiscardsPartialFrame : Prop :=
  ∀ (s : State) (timestamp bit : Nat), s.block.gapAt (normTimestamp Config.TSW timestamp) = true →
    ∃ s' : State, exec (.process timestamp bit) s = .next s' ∧
      s'.outputs.bitCount = 1 ∧ s'.outputs.frameDone = false ∧ s'.outputs.frameValid = false ∧
      (s'.block.bufAt 0).getLsbD 0 = normBit bit ∧
      (∀ p, p < 7 → (s'.block.bufAt 0).getLsbD (p + 1) = (s.block.bufAt 0).getLsbD p) ∧
      (∀ a, a ≠ 0 → s'.block.bufAt a = s.block.bufAt a)

/-- R108: the first PROCESS after INIT or RESET stores its bit as bit 0 of a frame for every timestamp, and two blocks
with `bit_count = 0` and the same buffer go to the same state whatever their `ts_valid` and `last_timestamp`. -/
def Obligations.FirstBitIsNeverDropped : Prop :=
  (∀ (s s0 : State) (timestamp bit : Nat), (exec .init s = .next s0 ∨ exec .reset s = .next s0) →
    ∃ s' : State, exec (.process timestamp bit) s0 = .next s' ∧ s'.block.bitCount = 1 ∧
      (s'.block.bufAt 0).getLsbD 0 = normBit bit ∧ (∀ a, a ≠ 0 → s'.block.bufAt a = s.block.bufAt a)) ∧
  (∀ (w : Nat) (r₁ r₂ : Block w) (timestamp bit : Nat), r₁.bitCount = 0 → r₂.bitCount = 0 → r₁.buf = r₂.buf →
    r₁.exec (.process timestamp bit) = r₂.exec (.process timestamp bit))

/-- R90, R155: with a tick counter that shows `T` and then `T + d`, wrapping at `2^TSW`, a gap is detected exactly when
`d mod 2^TSW` exceeds 3: a wrap gives the true small interval, and a silence of a multiple of `2^TSW` plus 0 to 3 is
not seen. -/
def Obligations.IntervalsAreModular : Prop :=
  ∀ (w : Nat) (r : Block w) (T d : Nat), r.tsValid = true → r.lastTimestamp = normTimestamp w T →
    (r.gapAt (normTimestamp w (T + d)) = true ↔ 3 < d % 2 ^ w)

/-- R6: the built block's width meets the constraint `TSW >= 3`, which is exactly what makes a gap detectable once a
previous timestamp exists. -/
def Obligations.GapsNeedThreeTimestampBits : Prop :=
  Config.WidthOk Config.TSW ∧
  ∀ w : Nat, Config.WidthOk w ↔ ∃ (r : Block w) (timestamp : Nat), r.tsValid = true ∧
    r.gapAt (normTimestamp w timestamp) = true

/-- R91: a timestamp smaller than the previous one by `d` is a gap for `1 <= d <= 2^TSW - 4`, with
`elapsed = 2^TSW - d`, and the frame in progress is discarded; for the three largest `d` the step is a forward step of
`2^TSW - d`, which is no gap; an equal one is no gap; nothing faults. -/
def Obligations.BackwardTimestamps : Prop :=
  ∀ (w : Nat) (r : Block w) (d bit : Nat), r.tsValid = true → d ≤ r.lastTimestamp.toNat →
    (1 ≤ d → d ≤ 2 ^ w - 4 →
      r.gapAt (normTimestamp w (r.lastTimestamp.toNat - d)) = true ∧
      (elapsed r.lastTimestamp (normTimestamp w (r.lastTimestamp.toNat - d))).toNat = 2 ^ w - d ∧
      ∃ r' : Block w, r.exec (.process (r.lastTimestamp.toNat - d) bit) = .next r' ∧ r'.bitCount = 1) ∧
    (2 ^ w - 3 ≤ d → d ≤ 2 ^ w - 1 →
      r.gapAt (normTimestamp w (r.lastTimestamp.toNat - d)) = false ∧
      r.exec (.process (r.lastTimestamp.toNat - d) bit) =
        r.exec (.process (r.lastTimestamp.toNat + (2 ^ w - d)) bit)) ∧
    (d = 0 → r.gapAt (normTimestamp w (r.lastTimestamp.toNat - d)) = false) ∧
    Outcome.Completes (r.exec (.process (r.lastTimestamp.toNat - d) bit))

/-- R160: a word held for two edges delivers its bit twice, the second with `elapsed = 0`, so it is stored as a
further bit. -/
def Obligations.HeldWordStoresTwice : Prop :=
  ∀ (w : Nat) (r r₁ : Block w) (timestamp bit : Nat), r.exec (.process timestamp bit) = .next r₁ →
    r₁.bitCount.toNat < 40 →
    ∃ r₂ : Block w, r₁.exec (.process timestamp bit) = .next r₂ ∧
      r₂.bitCount.toNat = r₁.bitCount.toNat + 1 ∧
      (r₂.bufAt (r₁.bitCount.toNat / 8)).getLsbD 0 = normBit bit

/-! ### INIT, IDLE, RESET -/

/-- R70: INIT completes from every state: everything but the buffer is cleared, and the FSM is in EMPTY. -/
def Obligations.InitClearsAllButBuffer : Prop :=
  ∀ s : State, ∃ s' : State, exec .init s = .next s' ∧
    s'.block.bitCount = 0 ∧ s'.block.tsValid = false ∧ s'.block.lastTimestamp = 0 ∧ s'.block.doneQ = false ∧
    s'.block.buf = s.block.buf ∧ s'.inputs = s.inputs ∧
    s'.outputs.frame = s.outputs.frame ∧ s'.outputs.frameValid = false ∧ s'.outputs.frameDone = false ∧
    s'.block.fsmState = .empty

/-- R72: IDLE completes from every state and changes `done_q` only. -/
def Obligations.IdleClearsDoneOnly : Prop :=
  ∀ s : State, ∃ s' : State, exec .idle s = .next s' ∧ s'.block.doneQ = false ∧
    s'.block.bitCount = s.block.bitCount ∧ s'.block.lastTimestamp = s.block.lastTimestamp ∧
    s'.block.tsValid = s.block.tsValid ∧ s'.block.buf = s.block.buf ∧ s'.inputs = s.inputs

/-- R140, R142: RESET, selected by the wire `rst` whatever `cmd_valid` and `cmd` are, completes from every state with the
state effect of INIT, which a command word requests. -/
def Obligations.ResetHasTheEffectOfInit : Prop :=
  (∀ (w : Nat) (p : PortSample w), p.rst = true → decodePorts p = .reset) ∧
  (∀ w : Nat, decodePorts (commandSample (initWord w)) = .init) ∧
  (∀ s : State, exec .reset s = exec .init s ∧ ∃ s' : State, exec .reset s = .next s' ∧
    s'.block = { bitCount := 0, lastTimestamp := 0, tsValid := false, buf := s.block.buf, doneQ := false } ∧
    s'.inputs = s.inputs)

/-- R71, R145: INIT after INIT or RESET changes nothing, and a PROCESS after RESET does what one after INIT does. -/
def Obligations.InitAfterRestartChangesNothing : Prop :=
  ∀ s s₀ : State, (exec .init s = .next s₀ ∨ exec .reset s = .next s₀) →
    exec .init s₀ = .next s₀ ∧ exec .init s = .next s₀ ∧ exec .reset s = .next s₀

/-- R15, R36: the frame of INIT, IDLE and RESET: no byte of the buffer and no coming input changes. -/
def Obligations.ControlStepsKeepBuffer : Prop :=
  ∀ (s s' : State) (i : Instr), (i = .init ∨ i = .idle ∨ i = .reset) → exec i s = .next s' →
    s'.inputs = s.inputs ∧ ∀ a, s'.block.bufAt a = s.block.bufAt a

/-- R72, R150: IDLE steps never matter. A stream with its IDLE steps left out gives the same return values and the same
state, but for `done_q`. -/
def Obligations.IdleStepsNeverMatter : Prop :=
  ∀ (w : Nat) (r : Block w) (l : List Instr), ∃ r₁ r₂ : Block w,
    Block.run l r = .next r₁ ∧ Block.run (l.filter (· ≠ .idle)) r = .next r₂ ∧
    r₁.bitCount = r₂.bitCount ∧ r₁.lastTimestamp = r₂.lastTimestamp ∧ r₁.tsValid = r₂.tsValid ∧ r₁.buf = r₂.buf ∧
    Block.returns l r = Block.returns (l.filter (· ≠ .idle)) r

/-! ### Invariants and whole-machine rules -/

/-- R120, R112, R122: no step faults, is stuck or is refused, in any state, with any operands. -/
def Obligations.EveryStepCompletes : Prop :=
  (∀ s : State, Outcome.Completes (step s)) ∧
  (∀ (i : Instr) (s : State), Outcome.Completes (exec i s)) ∧
  (∀ (w : Nat) (i : Instr) (r : Block w), Outcome.Completes (r.exec i))

/-- R23 with the canonical form of the buffer: the invariant that every step keeps, at the machine and at a block of
every timestamp width. -/
def Obligations.EveryStepKeepsInvariant : Prop :=
  (∀ s s' : State, s.block.Inv → step s = .next s' → s'.block.Inv) ∧
  (∀ (w : Nat) (i : Instr) (r r' : Block w), r.Inv → r.exec i = .next r' → r'.Inv)

/-- R22, R23: the invariant holds at reset, and after INIT or RESET from any state whose buffer is in canonical form,
the state before the first RESET included (R141). -/
def Obligations.RestartMeetsInvariant : Prop :=
  State.reset.block.Inv ∧
  ∀ (w : Nat) (r r' : Block w), r.buf.wf = true → (r.exec .init = .next r' ∨ r.exec .reset = .next r') → r'.Inv

/-- R23: in every state that a sequence of steps reaches from an INIT or a RESET, whatever stood before. -/
def Obligations.ReachableStatesMeetR23 : Prop :=
  ∀ (w : Nat) (c : Instr) (l : List Instr) (r r' : Block w), (c = .init ∨ c = .reset) →
    Block.run (c :: l) r = .next r' →
    r'.bitCount.toNat ≤ 40 ∧ (r'.tsValid = false ↔ r'.bitCount.toNat = 0) ∧
    (r'.doneQ = true → r'.bitCount.toNat = 40)

/-- R104: after any PROCESS `1 <= bit_count <= 40` and `ts_valid = 1`; EMPTY is reached only by INIT and RESET, and
left by the first PROCESS. -/
def Obligations.ProcessNeverLeavesEmpty : Prop :=
  ∀ (w : Nat) (r r' : Block w) (i : Instr), r.exec i = .next r' →
    (i.isProcess = true → 1 ≤ r'.bitCount.toNat ∧ r'.bitCount.toNat ≤ 40 ∧ r'.tsValid = true ∧
      r'.fsmState ≠ .empty) ∧
    (r'.fsmState = .empty → r.fsmState ≠ .empty → i = .init ∨ i = .reset)

/-- R127: COMPLETE is left in exactly two ways, a PROCESS that detects a gap, or INIT (or RESET). -/
def Obligations.CompleteIsLeftByGapOrRestart : Prop :=
  ∀ (w : Nat) (r r' : Block w) (i : Instr), r.bitCount.toNat = 40 → r.exec i = .next r' →
    (r'.bitCount.toNat ≠ 40 ↔
      i = .init ∨ i = .reset ∨
      ∃ timestamp bit, i = .process timestamp bit ∧ r.gapAt (normTimestamp w timestamp) = true)

/-- R31: no step writes any location other than `buf[0]` to `buf[4]`: the address a PROCESS stores to is one of the five,
and whatever step is taken, a byte at address 5 or above reads as before. -/
def Obligations.NoStepWritesOutsideBuffer : Prop :=
  (∀ (w : Nat) (r : Block w) (ts : Timestamp w) (a : Nat), r.storeAddress ts = some a → a < 5) ∧
  (∀ (w : Nat) (r r' : Block w) (i : Instr), r.exec i = .next r' → ∀ a, 5 ≤ a → r'.bufAt a = r.bufAt a)

/-- R32, the half-open reading of C1: since the last gap, INIT or RESET, the bytes PROCESS has written are exactly those
with index below `ceil(bit_count / 8)`; a byte a step changes is among them. -/
def Obligations.TouchedRegionIsExact : Prop :=
  (∀ (w : Nat) (r r' : Block w) (l : List Instr) (g : FrameLog), r.bitCount = 0 →
    Block.runLogged l (r, FrameLog.start) = .next (r', g) →
    ∀ a, a ∈ g.touched ↔ a < (r'.bitCount.toNat + 7) / 8) ∧
  (∀ (w : Nat) (r r' : Block w) (i : Instr) (g : FrameLog) (a : Nat), r.exec i = .next r' →
    r'.bufAt a ≠ r.bufAt a → a ∈ (FrameLog.after r i g).touched)

/-- R113: the count, the timestamp, its flag and the return value never depend on the contents of the buffer. -/
def Obligations.ControlIgnoresBuffer : Prop :=
  ∀ (w : Nat) (r₁ r₂ : Block w) (l : List Instr), r₁.bitCount = r₂.bitCount → r₁.lastTimestamp = r₂.lastTimestamp →
    r₁.tsValid = r₂.tsValid → r₁.doneQ = r₂.doneQ →
    Block.returns l r₁ = Block.returns l r₂ ∧
    ∃ r₁' r₂' : Block w, Block.run l r₁ = .next r₁' ∧ Block.run l r₂ = .next r₂' ∧
      r₁'.bitCount = r₂'.bitCount ∧ r₁'.lastTimestamp = r₂'.lastTimestamp ∧ r₁'.tsValid = r₂'.tsValid ∧
      r₁'.doneQ = r₂'.doneQ

/-- R108: the sentinel cannot be observed. Two blocks with `bit_count = 0` that differ only in `ts_valid` and
`last_timestamp` show the same outputs and return the same values for every command stream. -/
def Obligations.SentinelIsUnobservable : Prop :=
  ∀ (w : Nat) (r₁ r₂ : Block w) (l : List Instr), r₁.bitCount = 0 → r₂.bitCount = 0 → r₁.buf = r₂.buf →
    r₁.doneQ = r₂.doneQ →
    Block.trace l r₁ = Block.trace l r₂ ∧ Block.returns l r₁ = Block.returns l r₂

/-! ### The laws of command streams -/

/-- R105: after INIT or RESET, `n` PROCESS steps with no gap between consecutive ones, IDLE steps freely among them,
leave `bit_count = min(n, 40)`; the 40th returns 1 and every other one 0. -/
def Obligations.CountingLaw : Prop :=
  ∀ (w : Nat) (r : Block w) (c : Instr) (l : List Instr), (c = .init ∨ c = .reset) →
    unbroken (w := w) none l = true →
    (∃ r' : Block w, Block.run (c :: l) r = .next r' ∧ r'.bitCount.toNat = min (streamBits l).length 40) ∧
    Block.returns (c :: l) r = (List.range (streamBits l).length).map fun k => decide (k = 39)

/-- R106 under the conditions of R105 with `n >= 40`: the buffer holds the first 40 bits packed most significant bit
first, whatever it held before. -/
def Obligations.FortyBitsFillTheFrame : Prop :=
  ∀ (w : Nat) (r : Block w) (c : Instr) (l : List Instr), (c = .init ∨ c = .reset) →
    unbroken (w := w) none l = true → 40 ≤ (streamBits l).length →
    ∃ r' : Block w, Block.run (c :: l) r = .next r' ∧
      r'.frame.toNat = msbFirst ((streamBits l).take 40) ∧
      ∀ i, i < 5 → (r'.bufAt i).toNat = msbFirst (((streamBits l).drop (8 * i)).take 8)

/-- R33, R34: bit number `k` of the current frame is in byte `k div 8`, the latest bit of a byte at its bit 0. Every
step keeps this, for the frame's bits counted from the last gap, INIT or RESET. -/
def Obligations.EveryStepKeepsPacking : Prop :=
  ∀ (w : Nat) (r r' : Block w) (i : Instr) (g : FrameLog), r.bitCount.toNat ≤ 40 → r.Packed g.bits →
    r.exec i = .next r' → r'.Packed (FrameLog.after r i g).bits

/-- R106, R40 (a): along every stream of steps from a state with nothing received, whenever a PROCESS has returned 1,
and for as long as `frame_valid = 1` afterwards, the buffer holds exactly the 40 bits of the current frame. -/
def Obligations.CompletedFrameIsTheReceivedBits : Prop :=
  ∀ (w : Nat) (r r' : Block w) (l : List Instr) (g : FrameLog), r.bitCount = 0 → r.doneQ = false →
    Block.runLogged l (r, FrameLog.start) = .next (r', g) →
    (r'.doneQ = true → r'.frameValid = true) ∧
    (r'.frameValid = true → g.bits.length = 40 ∧ r'.frame.toNat = msbFirst g.bits ∧
      ∀ i, i < 5 → (r'.bufAt i).toNat = msbFirst ((g.bits.drop (8 * i)).take 8))

/-- R34: after `m` bits, 1 to 8, of the current frame have gone into byte `i`, its low `m` bits are those bits, the
latest at bit 0, and above them stand the low bits it held before; the other bytes are untouched. -/
def Obligations.PartialByteKeepsStaleBits : Prop :=
  ∀ (w : Nat) (r : Block w) (timestamp bit i : Nat) (l : List Instr) (bits : List Bool), i < 5 →
    (r.countAt (normTimestamp w timestamp)).toNat = 8 * i →
    unbroken (some (normTimestamp w timestamp)) l = true →
    bits = streamBits (.process timestamp bit :: l) → bits.length ≤ 8 →
    ∃ r' : Block w, Block.run (.process timestamp bit :: l) r = .next r' ∧
      r'.bitCount.toNat = 8 * i + bits.length ∧
      (∀ p, p < 8 → (r'.bufAt i).getLsbD p =
        if p < bits.length then bits.getD (bits.length - 1 - p) false
        else (r.bufAt i).getLsbD (p - bits.length)) ∧
      (∀ a, a ≠ i → r'.bufAt a = r.bufAt a)

/-- R107: in COMPLETE, every stream with no gap is absorbed: buffer and count keep their values, every return
value is 0, and only the timestamp moves. -/
def Obligations.OverflowAndRunOnAreAbsorbed : Prop :=
  ∀ (w : Nat) (r : Block w) (l : List Instr), r.bitCount.toNat = 40 → r.tsValid = true →
    unbroken (some r.lastTimestamp) l = true →
    (∃ r' : Block w, Block.run l r = .next r' ∧ r'.buf = r.buf ∧ r'.bitCount = r.bitCount ∧ r'.tsValid = true ∧
      r'.lastTimestamp = lastStamp r.lastTimestamp l) ∧
    ∀ ret, ret ∈ Block.returns l r → ret = false

/-- R111: between two PROCESS steps that return 1 at least 39 return 0 and there is a gap, an INIT or a RESET;
`frame_done` is never 1 in two consecutive cycles. -/
def Obligations.CompletionsAreSpaced : Prop :=
  (∀ (w : Nat) (r r₁ r₂ : Block w) (l : List Instr) (timestamp bit : Nat), r.bitCount.toNat = 40 → r.tsValid = true →
    Block.run l r = .next r₁ → r₁.exec (.process timestamp bit) = .next r₂ → r₂.doneQ = true →
    39 ≤ (Block.returns l r).count false ∧ unbroken (some r.lastTimestamp) l = false) ∧
  (∀ (w : Nat) (r r₁ r₂ : Block w) (i j : Instr), r.exec i = .next r₁ → r₁.exec j = .next r₂ →
    r₁.doneQ = true → r₂.doneQ = false)

/-- R61 and the source's concrete scenario S6 for every five bytes: after INIT, FRAME with spacing at most 3 completes
the frame with exactly those bytes, whatever the buffer held before. -/
def Obligations.FrameOfFiveBytesIsReceived : Prop :=
  ∀ (w : Nat) (r : Block w) (ts0 dt : Nat) (v0 v1 v2 v3 v4 : Byte), dt ≤ 3 →
    ∃ r' : Block w, Block.run (.init :: frameOp w ts0 dt [v0, v1, v2, v3, v4]) r = .next r' ∧
      r'.bufAt 0 = v0 ∧ r'.bufAt 1 = v1 ∧ r'.bufAt 2 = v2 ∧ r'.bufAt 3 = v3 ∧ r'.bufAt 4 = v4 ∧
      r'.outputs.frameDone = true ∧ r'.outputs.frameValid = true

/-! ### Outputs and copies -/

/-- R55: `frame` is the five bytes, byte 0 most significant; it changes only when a PROCESS stores a bit. -/
def Obligations.FrameOutputIsTheBuffer : Prop :=
  ∀ (w : Nat) (r : Block w),
    r.frame.extractLsb' 32 8 = r.bufAt 0 ∧ r.frame.extractLsb' 24 8 = r.bufAt 1 ∧
    r.frame.extractLsb' 16 8 = r.bufAt 2 ∧ r.frame.extractLsb' 8 8 = r.bufAt 3 ∧
    r.frame.extractLsb' 0 8 = r.bufAt 4 ∧
    (∀ k, k < 40 → r.frame.getLsbD (39 - k) = (r.bufAt (k / 8)).getLsbD (7 - k % 8)) ∧
    (∀ (i : Instr) (r' : Block w), r.exec i = .next r' → r'.frame ≠ r.frame →
      ∃ timestamp bit, i = .process timestamp bit ∧ (r.countAt (normTimestamp w timestamp)).toNat < 40)

/-- R56: `frame_done` is 1 in exactly the cycle after the edge at which a PROCESS stored the 40th bit, and then
`frame_valid` is 1; `frame_valid` is `bit_count = 40`; `bit_count` is the state's. -/
def Obligations.StatusOutputsFollowState : Prop :=
  ∀ (w : Nat) (r r' : Block w) (i : Instr), r.exec i = .next r' →
    (r'.outputs.frameDone = true ↔
      ∃ timestamp bit, i = .process timestamp bit ∧ (r.countAt (normTimestamp w timestamp)).toNat = 39) ∧
    (r'.outputs.frameDone = true → r'.outputs.frameValid = true) ∧
    (r'.outputs.frameValid = true ↔ r'.bitCount.toNat = 40) ∧
    r'.outputs.bitCount = r'.bitCount

/-- R131: one clock edge of one copy is that copy's own step and touches no other copy. -/
def Obligations.CopiesAreIndependent : Prop :=
  ∀ (sys : Instances) (k : Nat) (s : State), sys[k]? = some s →
    ∃ (s' : State) (sys' : Instances), step s = .next s' ∧ sys.stepAt k = .next sys' ∧
      sys'[k]? = some s' ∧ ∀ j, j ≠ k → sys'[j]? = sys[j]?

/-! ### Moved or added after review -/

/-- The model's choice of log entry 12, for the addresses that R30 says do not exist: `MemRead` and `MemWrite` at an
address of 5 or above answer the fault `outsideFrameBuffer`. -/
def Obligations.AccessOutsideBufferFaults : Prop :=
  ∀ (m : Memory) (a : Nat) (v : Byte), 5 ≤ a →
    memWrite m a v = .error (.outsideFrameBuffer a) ∧ memRead m a = .error (.outsideFrameBuffer a)

/-- R32 as what every step keeps: the addresses written since the last gap, INIT or RESET are exactly those below
`ceil(bit_count / 8)`, and the count is at most 40. It holds of every block and log, not only of those a run reaches. -/
def Obligations.EveryStepKeepsTouchedRegion : Prop :=
  ∀ (w : Nat) (r r' : Block w) (i : Instr) (g : FrameLog), r.bitCount.toNat ≤ 40 →
    (∀ a, a ∈ g.touched ↔ a < (r.bitCount.toNat + 7) / 8) → r.exec i = .next r' →
    r'.bitCount.toNat ≤ 40 ∧ ∀ a, a ∈ (FrameLog.after r i g).touched ↔ a < (r'.bitCount.toNat + 7) / 8
end

