-- ==== Sys2Proof/Laws/Memory.lean ====
section
/-! SUPPORT. The frame buffer as a memory: what a write does to each byte, and that its canonical form is kept. -/

namespace Sys2Proof.Machine

theorem Memory.byteAt_erase_same (m : Memory) (a : Nat) : (m.erase a).byteAt a = Config.unwrittenByte := by
  induction m with
  | nil => rfl
  | cons c rest ih =>
    obtain ⟨b, v⟩ := c
    by_cases h : b = a <;> simp [Memory.erase, Memory.byteAt, h, ih]

theorem Memory.byteAt_erase_other (m : Memory) {a a' : Nat} (h : a' ≠ a) : (m.erase a).byteAt a' = m.byteAt a' := by
  induction m with
  | nil => rfl
  | cons c rest ih =>
    obtain ⟨b, v⟩ := c
    by_cases hb : b = a
    · simp [Memory.erase, Memory.byteAt, hb, ih, Ne.symm h]
    · by_cases hb' : b = a' <;> simp [Memory.erase, Memory.byteAt, hb, hb', ih, h]

theorem Memory.byteAt_insertCell_same (m : Memory) (a : Nat) (v : Byte) :
    ((m.erase a).insertCell a v).byteAt a = v := by
  induction m with
  | nil => simp [Memory.erase, Memory.insertCell, Memory.byteAt]
  | cons c rest ih =>
    obtain ⟨b, u⟩ := c
    by_cases hb : b = a
    · simpa [Memory.erase, hb] using ih
    · by_cases hlt : a < b <;> simp [Memory.erase, Memory.insertCell, Memory.byteAt, hb, hlt, ih]

theorem Memory.byteAt_insertCell_other (m : Memory) {a a' : Nat} (v : Byte) (h : a' ≠ a) :
    (m.insertCell a v).byteAt a' = m.byteAt a' := by
  induction m with
  | nil => simp [Memory.insertCell, Memory.byteAt, Ne.symm h]
  | cons c rest ih =>
    obtain ⟨b, u⟩ := c
    by_cases hlt : a < b
    · simp [Memory.insertCell, Memory.byteAt, hlt, Ne.symm h]
    · simp only [Memory.insertCell, hlt, if_false, Memory.byteAt, ih]

/-- A read after a write to the same byte gives the byte written. -/
@[simp] theorem Memory.byteAt_put_same (m : Memory) (a : Nat) (v : Byte) : (m.put a v).byteAt a = v := by
  by_cases h : v = Config.unwrittenByte
  · simp [Memory.put, h, Memory.byteAt_erase_same]
  · simp [Memory.put, h, Memory.byteAt_insertCell_same]

/-- A write leaves every other byte alone. -/
theorem Memory.byteAt_put_other (m : Memory) {a a' : Nat} (v : Byte) (h : a' ≠ a) :
    (m.put a v).byteAt a' = m.byteAt a' := by
  by_cases hv : v = Config.unwrittenByte
  · simp [Memory.put, hv, Memory.byteAt_erase_other _ h]
  · simp [Memory.put, hv, Memory.byteAt_insertCell_other _ _ h, Memory.byteAt_erase_other _ h]

theorem Memory.risingFrom_cons (lo a : Nat) (v : Byte) (rest : Memory) :
    Memory.risingFrom lo ((a, v) :: rest) = true ↔
      lo ≤ a ∧ a < Config.FRAME_BYTES ∧ v ≠ Config.unwrittenByte ∧ Memory.risingFrom (a + 1) rest = true := by
  simp [Memory.risingFrom, and_assoc]

theorem Memory.risingFrom_mono {m : Memory} {lo lo' : Nat} (h : lo' ≤ lo) (hm : m.risingFrom lo = true) :
    m.risingFrom lo' = true := by
  cases m with
  | nil => rfl
  | cons c rest =>
    obtain ⟨a, v⟩ := c
    rw [Memory.risingFrom_cons] at hm ⊢
    exact ⟨h.trans hm.1, hm.2⟩

theorem Memory.risingFrom_erase {m : Memory} (a : Nat) {lo : Nat} (hm : m.risingFrom lo = true) :
    (m.erase a).risingFrom lo = true := by
  induction m generalizing lo with
  | nil => rfl
  | cons c rest ih =>
    obtain ⟨b, v⟩ := c
    rw [Memory.risingFrom_cons] at hm
    by_cases hb : b = a
    · simpa [Memory.erase, hb] using ih (Memory.risingFrom_mono (hm.1.trans b.le_succ) hm.2.2.2)
    · simp only [Memory.erase, hb, if_false]
      exact (Memory.risingFrom_cons ..).2 ⟨hm.1, hm.2.1, hm.2.2.1, ih hm.2.2.2⟩

theorem Memory.risingFrom_insertCell {m : Memory} {a : Nat} {v : Byte} (ha : a < Config.FRAME_BYTES)
    (hv : v ≠ Config.unwrittenByte) {lo : Nat} (hlo : lo ≤ a) (hm : m.risingFrom lo = true) :
    ((m.erase a).insertCell a v).risingFrom lo = true := by
  induction m generalizing lo with
  | nil => simp [Memory.erase, Memory.insertCell, Memory.risingFrom, hlo, ha, hv]
  | cons c rest ih =>
    obtain ⟨b, u⟩ := c
    rw [Memory.risingFrom_cons] at hm
    by_cases hb : b = a
    · subst hb
      simpa [Memory.erase] using ih hlo (Memory.risingFrom_mono (hm.1.trans b.le_succ) hm.2.2.2)
    · by_cases hlt : a < b
      · simp only [Memory.erase, Memory.insertCell, hb, hlt, if_false, if_true]
        exact (Memory.risingFrom_cons ..).2 ⟨hlo, ha, hv,
          (Memory.risingFrom_cons ..).2 ⟨hlt, hm.2.1, hm.2.2.1, Memory.risingFrom_erase a hm.2.2.2⟩⟩
      · simp only [Memory.erase, Memory.insertCell, hb, hlt, if_false]
        exact (Memory.risingFrom_cons ..).2 ⟨hm.1, hm.2.1, hm.2.2.1, ih (by omega) hm.2.2.2⟩

/-- A write inside the buffer keeps the canonical form. -/
theorem Memory.wf_put {m : Memory} {a : Nat} (v : Byte) (ha : a < Config.FRAME_BYTES) (hm : m.wf = true) :
    (m.put a v).wf = true := by
  by_cases hv : v = Config.unwrittenByte
  · simpa [Memory.put, hv, Memory.wf] using Memory.risingFrom_erase a hm
  · simpa [Memory.put, hv, Memory.wf] using Memory.risingFrom_insertCell ha hv a.zero_le hm

/-- `MemWrite` keeps the canonical form. -/
theorem memWrite_wf {m m' : Memory} {a : Nat} {v : Byte} (h : memWrite m a v = .ok m') (hm : m.wf = true) :
    m'.wf = true := by
  unfold memWrite at h
  split at h
  · cases h; exact Memory.wf_put v ‹_› hm
  · cases h

theorem Memory.byteAt_of_lt {m : Memory} {lo a : Nat} (hm : m.risingFrom lo = true) (h : a < lo) :
    m.byteAt a = Config.unwrittenByte := by
  induction m generalizing lo with
  | nil => rfl
  | cons c rest ih =>
    obtain ⟨b, v⟩ := c
    rw [Memory.risingFrom_cons] at hm
    have hb : b ≠ a := by omega
    simpa [Memory.byteAt, hb] using ih hm.2.2.2 (by omega)

theorem Memory.ext_risingFrom {m m' : Memory} {lo : Nat} (hm : m.risingFrom lo = true)
    (hm' : m'.risingFrom lo = true) (h : ∀ a, m.byteAt a = m'.byteAt a) : m = m' := by
  induction m generalizing m' lo with
  | nil =>
    cases m' with
    | nil => rfl
    | cons c rest =>
      obtain ⟨b, v⟩ := c
      rw [Memory.risingFrom_cons] at hm'
      have := h b
      simp [Memory.byteAt] at this
      exact absurd this.symm hm'.2.2.1
  | cons c rest ih =>
    obtain ⟨b, v⟩ := c
    cases m' with
    | nil =>
      rw [Memory.risingFrom_cons] at hm
      have := h b
      simp [Memory.byteAt] at this
      exact absurd this hm.2.2.1
    | cons c' rest' =>
      obtain ⟨b', v'⟩ := c'
      rw [Memory.risingFrom_cons] at hm hm'
      have hbb : b = b' := by
        rcases Nat.lt_trichotomy b b' with hlt | heq | hlt
        · have := h b
          simp only [Memory.byteAt, if_true, if_neg (Nat.ne_of_gt hlt)] at this
          exact absurd (this.trans (Memory.byteAt_of_lt hm'.2.2.2 (by omega))) hm.2.2.1
        · exact heq
        · have := h b'
          simp only [Memory.byteAt, if_true, if_neg (Nat.ne_of_gt hlt)] at this
          exact absurd (this.symm.trans (Memory.byteAt_of_lt hm.2.2.2 (by omega))) hm'.2.2.1
      subst hbb
      have hvv : v = v' := by simpa [Memory.byteAt] using h b
      subst hvv
      refine congrArg _ (ih hm.2.2.2 hm'.2.2.2 fun a => ?_)
      by_cases hab : b = a
      · subst hab
        rw [Memory.byteAt_of_lt hm.2.2.2 (by omega), Memory.byteAt_of_lt hm'.2.2.2 (by omega)]
      · simpa [Memory.byteAt, hab] using h a

/-- Two canonical buffers whose bytes read alike are the same buffer. -/
theorem Memory.ext_of_wf {m m' : Memory} (hm : m.wf = true) (hm' : m'.wf = true)
    (h : ∀ a, m.byteAt a = m'.byteAt a) : m = m' :=
  Memory.ext_risingFrom hm hm' h

/-- The bit at a position of a byte after one shift (R86). -/
theorem shiftIn_getLsbD (old : Byte) (nb : Bool) (p : Nat) :
    (shiftIn old nb).getLsbD p = if p = 0 then nb else (decide (p < 8) && old.getLsbD (p - 1)) := by
  rcases p with _ | p
  · cases nb <;> simp [shiftIn]
  · cases nb <;> simp [shiftIn, BitVec.getLsbD_one]

@[simp] theorem shiftIn_getElem_zero (old : Byte) (nb : Bool) : (shiftIn old nb)[0] = nb := by
  rw [← BitVec.getLsbD_eq_getElem, shiftIn_getLsbD, if_pos rfl]

end Sys2Proof.Machine
end

