-- ==== Sys2Proof/Laws/State.lean ====
section
/-! SUPPORT. One lemma per field per update of the state. -/

namespace Sys2Proof.Machine

/-- The widths of Word.lean are the constants of Config (R5, R6). -/
theorem word_widths : Count = BitVec Config.BCW ∧ Byte = BitVec Config.BYTE_BITS ∧ FrameWord = BitVec Config.FRAME_BITS ∧
    Config.FRAME_BITS = Config.FRAME_BYTES * Config.BYTE_BITS ∧ Config.FRAME_BITS < 2 ^ Config.BCW ∧
    2 ^ (Config.BCW - 1) ≤ Config.FRAME_BITS :=
  ⟨rfl, rfl, rfl, rfl, by decide, by decide⟩

variable {w : Nat}

@[simp] theorem Block.stamp_bitCount (r : Block w) (ts : Timestamp w) : (r.stamp ts).bitCount = r.bitCount := rfl
@[simp] theorem Block.stamp_lastTimestamp (r : Block w) (ts : Timestamp w) : (r.stamp ts).lastTimestamp = ts := rfl
@[simp] theorem Block.stamp_tsValid (r : Block w) (ts : Timestamp w) : (r.stamp ts).tsValid = true := rfl
@[simp] theorem Block.stamp_buf (r : Block w) (ts : Timestamp w) : (r.stamp ts).buf = r.buf := rfl
@[simp] theorem Block.stamp_doneQ (r : Block w) (ts : Timestamp w) : (r.stamp ts).doneQ = r.doneQ := rfl

@[simp] theorem Block.clear_bitCount (r : Block w) : r.clear.bitCount = 0 := rfl
@[simp] theorem Block.clear_lastTimestamp (r : Block w) : r.clear.lastTimestamp = 0 := rfl
@[simp] theorem Block.clear_tsValid (r : Block w) : r.clear.tsValid = false := rfl
@[simp] theorem Block.clear_buf (r : Block w) : r.clear.buf = r.buf := rfl
@[simp] theorem Block.clear_doneQ (r : Block w) : r.clear.doneQ = false := rfl

@[simp] theorem Block.absorb_bitCount (r : Block w) : r.absorb.bitCount = 40#6 := rfl
@[simp] theorem Block.absorb_lastTimestamp (r : Block w) : r.absorb.lastTimestamp = r.lastTimestamp := rfl
@[simp] theorem Block.absorb_tsValid (r : Block w) : r.absorb.tsValid = r.tsValid := rfl
@[simp] theorem Block.absorb_buf (r : Block w) : r.absorb.buf = r.buf := rfl
@[simp] theorem Block.absorb_doneQ (r : Block w) : r.absorb.doneQ = false := rfl

@[simp] theorem State.afterSample_block (s : State) : s.afterSample.block = s.block := rfl
@[simp] theorem State.afterSample_inputs (s : State) : s.afterSample.inputs = s.inputs.tail := rfl
@[simp] theorem State.present_block (s : State) (p : PortSample Config.TSW) : (s.present p).block = s.block := rfl
@[simp] theorem State.present_inputs (s : State) (p : PortSample Config.TSW) :
    (s.present p).inputs = p :: s.inputs := rfl
@[simp] theorem State.present_sample (s : State) (p : PortSample Config.TSW) : (s.present p).sample = p := rfl
@[simp] theorem State.present_afterSample (s : State) (p : PortSample Config.TSW) :
    (s.present p).afterSample = s := rfl

/-- An edge at which nothing is presented samples no command. -/
theorem State.sample_of_inputs_nil {s : State} (h : s.inputs = []) : s.sample = idleSample Config.TSW := by
  simp [State.sample, h]

/-- An edge samples what is presented first. -/
theorem State.sample_of_inputs_cons {s : State} {p : PortSample Config.TSW} {rest : List (PortSample Config.TSW)}
    (h : s.inputs = p :: rest) : s.sample = p := by
  simp [State.sample, h]

/-- A block-level effect that completes, as an effect on the whole state. -/
theorem State.onBlock_next {s : State} {f : Block Config.TSW → Host.Outcome (Block Config.TSW) Fault Refusal}
    {b : Block Config.TSW} (h : f s.block = .next b) : s.onBlock f = .next { s with block := b } := by
  simp [State.onBlock, h]

end Sys2Proof.Machine
end

