-- ==== Sys2Proof/Laws/Block.lean ====
section
/-! SUPPORT. Everything each shared operation and each step can do at the block, said once. -/

namespace Sys2Proof.Machine

variable {w : Nat}

theorem storeEnable_iff (bc0 : Count) : storeEnable bc0 = true ↔ bc0.toNat < 40 := by simp [storeEnable]

theorem completes_iff (bc0 : Count) : completes bc0 = true ↔ bc0.toNat = 39 := by
  simp [completes, Config.FRAME_BITS]

theorem overGap_iff (last ts : Timestamp w) : overGap last ts = true ↔ 3 < (ts - last).toNat := by
  rw [overGap, decide_eq_true_iff]; rfl

/-- A count that enables a store selects a byte of the buffer (R31). -/
theorem byteIndex_lt {bc0 : Count} (h : storeEnable bc0 = true) : byteIndex bc0 < Config.FRAME_BYTES := by
  rw [storeEnable_iff] at h
  simp only [byteIndex, Config.BYTE_BITS, Config.FRAME_BYTES]
  omega

/-- The next count does not wrap (R11, R86). -/
theorem toNat_succ {bc0 : Count} (h : storeEnable bc0 = true) : (bc0 + 1).toNat = bc0.toNat + 1 := by
  rw [storeEnable_iff] at h
  rw [BitVec.toNat_add]
  exact Nat.mod_eq_of_lt (by simp; omega)

/-- The gap condition in numbers (R83). -/
theorem Block.gapAt_iff {r : Block w} {ts : Timestamp w} :
    r.gapAt ts = true ↔ r.tsValid = false ∨ 3 < (ts - r.lastTimestamp).toNat := by
  simp only [Block.gapAt, gap, Bool.or_eq_true, overGap_iff, Bool.not_eq_true']

/-- `ts_valid` and `last_timestamp` are read as one optional timestamp (R14). -/
theorem Block.gapAt_eq_of_previous (r : Block w) (ts : Timestamp w) :
    r.gapAt ts = match r.previous with
      | none => true
      | some last => overGap last ts := by
  cases h : r.tsValid <;> simp [Block.gapAt, gap, Block.previous, h]

/-- With a gap PROCESS works with the count 0 (R84). -/
theorem Block.countAt_of_gap {r : Block w} {ts : Timestamp w} (h : r.gapAt ts = true) : r.countAt ts = 0 := by
  simp [Block.countAt, h, countAfterGap]

/-- Without a gap PROCESS works with `bit_count` (R84). -/
theorem Block.countAt_of_not_gap {r : Block w} {ts : Timestamp w} (h : r.gapAt ts = false) :
    r.countAt ts = r.bitCount := by
  simp [Block.countAt, h, countAfterGap]

/-- The address stored to is the byte the count selects (R86). -/
theorem Block.storeAddress_of_store {r : Block w} {ts : Timestamp w} (h : storeEnable (r.countAt ts) = true) :
    r.storeAddress ts = some (byteIndex (r.countAt ts)) := if_pos h

/-- A bit that is absorbed is stored nowhere (R87). -/
theorem Block.storeAddress_of_absorb {r : Block w} {ts : Timestamp w} (h : storeEnable (r.countAt ts) = false) :
    r.storeAddress ts = none := by
  simp [Block.storeAddress, h]

/-- The read-modify-write of R86 completes at every count that enables a store. -/
theorem shiftBuffer_ok (m : Memory) {bc0 : Count} (nb : Bool) (h : storeEnable bc0 = true) :
    shiftBuffer m bc0 nb = .ok (m.put (byteIndex bc0) (shiftIn (m.byteAt (byteIndex bc0)) nb)) := by
  simp [shiftBuffer, memRead, memWrite, byteIndex_lt h]

/-- A PROCESS that stores (R85, R86, R88). -/
theorem Block.process_store {r : Block w} {timestamp bit : Nat}
    (h : storeEnable (r.countAt (normTimestamp w timestamp)) = true) :
    r.process timestamp bit = .next
      { bitCount := r.countAt (normTimestamp w timestamp) + 1
        lastTimestamp := normTimestamp w timestamp
        tsValid := true
        buf := r.buf.put (byteIndex (r.countAt (normTimestamp w timestamp)))
          (shiftIn (r.buf.byteAt (byteIndex (r.countAt (normTimestamp w timestamp)))) (normBit bit))
        doneQ := completes (r.countAt (normTimestamp w timestamp)) } := by
  simp [Block.process, h, Block.store, shiftBuffer_ok _ _ h, Block.stamp]

/-- A PROCESS that absorbs (R85, R87). -/
theorem Block.process_absorb {r : Block w} {timestamp bit : Nat}
    (h : storeEnable (r.countAt (normTimestamp w timestamp)) = false) :
    r.process timestamp bit = .next
      { bitCount := 40#6
        lastTimestamp := normTimestamp w timestamp
        tsValid := true
        buf := r.buf
        doneQ := false } := by
  simp [Block.process, h, Block.absorb, Block.stamp]

@[simp] theorem Block.exec_process (r : Block w) (timestamp bit : Nat) :
    r.exec (.process timestamp bit) = r.process timestamp bit := rfl
@[simp] theorem Block.exec_init (r : Block w) : r.exec .init = .next r.clear := rfl
@[simp] theorem Block.exec_idle (r : Block w) : r.exec .idle = .next { r with doneQ := false } := rfl
@[simp] theorem Block.exec_reset (r : Block w) : r.exec .reset = .next r.clear := rfl

/-- What a PROCESS that reached a next state did: it stored, or it absorbed (R92). -/
theorem Block.process_cases {r r' : Block w} {timestamp bit : Nat} (h : r.process timestamp bit = .next r') :
    (storeEnable (r.countAt (normTimestamp w timestamp)) = true ∧
      r'.bitCount = r.countAt (normTimestamp w timestamp) + 1 ∧
      r'.lastTimestamp = normTimestamp w timestamp ∧ r'.tsValid = true ∧
      r'.buf = r.buf.put (byteIndex (r.countAt (normTimestamp w timestamp)))
        (shiftIn (r.buf.byteAt (byteIndex (r.countAt (normTimestamp w timestamp)))) (normBit bit)) ∧
      r'.doneQ = completes (r.countAt (normTimestamp w timestamp))) ∨
    (storeEnable (r.countAt (normTimestamp w timestamp)) = false ∧
      r'.bitCount = 40#6 ∧ r'.lastTimestamp = normTimestamp w timestamp ∧ r'.tsValid = true ∧
      r'.buf = r.buf ∧ r'.doneQ = false) := by
  cases hs : storeEnable (r.countAt (normTimestamp w timestamp)) with
  | true =>
    rw [Block.process_store hs] at h
    cases h
    exact .inl ⟨rfl, rfl, rfl, rfl, rfl, rfl⟩
  | false =>
    rw [Block.process_absorb hs] at h
    cases h
    exact .inr ⟨rfl, rfl, rfl, rfl, rfl, rfl⟩

/-- The dispatch over the whole state is the dispatch at its block. -/
theorem exec_eq_onBlock (i : Instr) (s : State) : exec i s = s.onBlock (Block.exec i) := by
  cases i <;> rfl

/-- An instruction that completes at the block completes at the whole state, the inputs untouched. -/
theorem exec_of_block_next {i : Instr} {s : State} {b : Block Config.TSW} (h : s.block.exec i = .next b) :
    exec i s = .next { s with block := b } := by
  rw [exec_eq_onBlock]
  exact State.onBlock_next h

/-- What a completed instruction did to the whole state. -/
theorem exec_next_cases {i : Instr} {s s' : State} (h : exec i s = .next s') :
    s.block.exec i = .next s'.block ∧ s'.inputs = s.inputs := by
  rw [exec_eq_onBlock, State.onBlock] at h
  split at h <;> cases h
  exact ⟨‹_›, rfl⟩

end Sys2Proof.Machine
end

