-- ==== Sys2Proof/Laws/Decode.lean ====
section
/-! SUPPORT. The fields of the command words the encoder writes (R52, R54). -/

namespace Sys2Proof

variable {w : Nat}

theorem processWord_toNat (w timestamp bit : Nat) :
    (processWord w timestamp bit).toNat =
      (Machine.normBit bit).toNat * 2 ^ w + (Machine.normTimestamp w timestamp).toNat := by
  have hb : (Machine.normBit bit).toNat ≤ 1 := Bool.toNat_le _
  have ht : (Machine.normTimestamp w timestamp).toNat < 2 ^ w := BitVec.isLt _
  have hp : 2 ^ (w + 2) = 4 * 2 ^ w := by rw [pow_add]; omega
  rw [processWord, BitVec.toNat_ofNat, Nat.mod_eq_of_lt]
  calc (Machine.normBit bit).toNat * 2 ^ w + (Machine.normTimestamp w timestamp).toNat
      < 1 * 2 ^ w + 2 ^ w := Nat.add_lt_add_of_le_of_lt (Nat.mul_le_mul_right _ hb) ht
    _ ≤ 2 ^ (w + 2) := by omega

theorem initWord_toNat (w : Nat) : (initWord w).toNat = 2 ^ (w + 1) := by
  rw [initWord, BitVec.toNat_ofNat, Nat.mod_eq_of_lt]
  exact Nat.pow_lt_pow_right (by norm_num) (by omega)

@[simp] theorem opField_processWord (w timestamp bit : Nat) : opField (processWord w timestamp bit) = false := by
  have hb : (Machine.normBit bit).toNat ≤ 1 := Bool.toNat_le _
  have ht : (Machine.normTimestamp w timestamp).toNat < 2 ^ w := BitVec.isLt _
  rw [opField, BitVec.getLsbD, processWord_toNat]
  refine Nat.testBit_lt_two_pow ?_
  calc (Machine.normBit bit).toNat * 2 ^ w + (Machine.normTimestamp w timestamp).toNat
      < 1 * 2 ^ w + 2 ^ w := Nat.add_lt_add_of_le_of_lt (Nat.mul_le_mul_right _ hb) ht
    _ = 2 ^ (w + 1) := by rw [pow_succ]; omega

@[simp] theorem opField_initWord (w : Nat) : opField (initWord w) = true := by
  rw [opField, BitVec.getLsbD, initWord_toNat]
  exact Nat.testBit_two_pow_self

@[simp] theorem bitField_processWord (w timestamp bit : Nat) :
    bitField (processWord w timestamp bit) = Machine.normBit bit := by
  have ht : (Machine.normTimestamp w timestamp).toNat < 2 ^ w := BitVec.isLt _
  rw [bitField, BitVec.getLsbD, processWord_toNat]
  cases Machine.normBit bit with
  | false => simpa using Nat.testBit_lt_two_pow ht
  | true =>
    rw [Bool.toNat_true, Nat.one_mul, Nat.testBit_two_pow_add_eq, Nat.testBit_lt_two_pow ht]
    rfl

@[simp] theorem timestampField_processWord (w timestamp bit : Nat) :
    timestampField (processWord w timestamp bit) = Machine.normTimestamp w timestamp := by
  apply BitVec.eq_of_toNat_eq
  rw [timestampField, BitVec.toNat_setWidth, processWord_toNat, Nat.mul_add_mod_self_right]
  exact Nat.mod_eq_of_lt (BitVec.isLt _)

/-- A timestamp that fits its field is not changed by the normalisation of R53. -/
theorem normTimestamp_toNat {timestamp : Nat} (h : TimestampFits w timestamp) :
    (Machine.normTimestamp w timestamp).toNat = timestamp := by
  rw [Machine.normTimestamp, BitVec.toNat_ofNat, Nat.mod_eq_of_lt h]

/-- A bit that is 0 or 1 is not changed by the normalisation of R53. -/
theorem normBit_toNat {bit : Nat} (h : BitFits bit) : (Machine.normBit bit).toNat = bit := by
  interval_cases bit <;> rfl

end Sys2Proof
end

