-- ==== Sys2Proof/Laws/PerInstr.lean ====
section
/-! SUPPORT. Statements about every step as a term, one lemma per constructor of `Instr`. -/

namespace Sys2Proof.Laws.SelectedWhen

/-- The ports that `encode` presents for a step meet the column `selected_when` of its row in spec/opcode_table.json,
for every timestamp width. -/
def Statement : Instr → Prop
  | .process timestamp bit => ∀ w, (encode w (.process timestamp bit)).rst = false ∧
      (encode w (.process timestamp bit)).cmdValid = true ∧ opField (encode w (.process timestamp bit)).cmd = false
  | .init => ∀ w, (encode w .init).rst = false ∧ (encode w .init).cmdValid = true ∧ opField (encode w .init).cmd = true
  | .idle => ∀ w, (encode w .idle).rst = false ∧ (encode w .idle).cmdValid = false
  | .reset => ∀ w, (encode w .reset).rst = true

theorem process (timestamp bit : Nat) : Statement (.process timestamp bit) :=
  fun w => ⟨rfl, rfl, opField_processWord w timestamp bit⟩

theorem init : Statement .init := fun w => ⟨rfl, rfl, opField_initWord w⟩

theorem idle : Statement .idle := fun _ => ⟨rfl, rfl⟩

theorem reset : Statement .reset := fun _ => rfl

end Sys2Proof.Laws.SelectedWhen
end

