-- ==== Sys2Proof/Tests/Slice0.lean ====
section
/-! SUPPORT. Small tests with results from spec/95_test_vectors.md or from the encoding of spec/30_encoding.md, and
for every statement with hypotheses a witness that meets them. -/

namespace Sys2Proof.Tests

open Sys2Proof.Machine

/-! ### Helpers -/

/-- The block of the vectors: `bc`, `lt`, `tv`, five bytes, `dq`. -/
def blockOf (bc : Count) (lt : Timestamp 32) (tv : Bool) (buf : Memory) (dq : Bool) : Block 32 :=
  { bitCount := bc, lastTimestamp := lt, tsValid := tv, buf := buf, doneQ := dq }

/-- That block with nothing presented at the ports. -/
def stateOf (r : Block 32) : State := { block := r, inputs := [] }

/-- The block a completed step leaves. -/
def blockAfter (i : Instr) (r : Block 32) : Option (Block 32) := Outcome.next? (r.exec i)

/-- The buffer of CB1: a frame that lacks its last bit. -/
def almost : Memory := Memory.ofBytes 0x42 0x02 0x58 0xAA 0x06

/-- The source's frame (S6). -/
def source : Memory := Memory.ofBytes 0x42 0x02 0x58 0xAA 0x0D

/-- The block before the 40th bit (CB1). -/
def at39 : Block 32 := blockOf 39 2000 true almost false

/-- The block in COMPLETE (CB6). -/
def at40 : Block 32 := blockOf 40 2000 true source false

/-! ### WellFormed: one ill-formed term per check -/

theorem test_wf_accepts : WellFormed (.process 0xFFFFFFFF 1) := by decide
theorem test_wf_refuses_timestamp : ¬ WellFormed (.process 0x100000000 1) := by decide
theorem test_wf_refuses_bit : ¬ WellFormed (.process 0 2) := by decide

/-! ### Decoding, words written out from R52: `op` at bit 33, `b` at bit 32, `ts` at bits 31 to 0 -/

/-- EN4: op 0, b 1, ts 1000. -/
theorem test_decode_process :
    decodeTableWord 40 0b0100000000000000000000001111101000 = some (.process 1000 1) := by decide
/-- EN7: op 1, the rest 0. -/
theorem test_decode_init : decodeTableWord 40 0b1000000000000000000000000000000000 = some .init := by decide
/-- EN8: `b` and `ts` of INIT are ignored. -/
theorem test_decode_init_ignores : decodeTableWord 40 0b1111111111111111111111111111111111 = some .init := by decide
/-- EN10: `cmd_valid = 0`, the word is not executed. -/
theorem test_decode_idle :
    decodePorts (w := 32) { rst := false, cmdValid := false, cmd := 0b0100000000000000000000001111101000 } = .idle := by
  decide
/-- EN11: `rst` wins over a valid command. -/
theorem test_decode_reset :
    decodePorts (w := 32) { rst := true, cmdValid := true, cmd := 0b0100000000000000000000001111101000 } = .reset := by
  decide
/-- A bit for which the port has no wire. -/
theorem test_decode_refuses_wide :
    (match decodeNat 32 0x400000000 with | .ok _ => none | .error e => some e)
      = some (.widerThanPort 0x400000000) := by decide
/-- Section 8 of the vectors, a width of 8: op at bit 9, b at bit 8. -/
theorem test_decode_width8 :
    decodeCommand (w := 8) 0b0100010011 = .process 0x13 1 ∧ decodeCommand (w := 8) 0b1000000000 = .init := by decide
theorem test_encode_process : encodeCommand 32 (.process 1000 1) = some 0x1000003E8 := by decide
theorem test_encode_init : encodeCommand 32 .init = some 0x200000000 := by decide

/-! ### One step each -/

/-- CB2: the 40th bit, interval 3. -/
theorem test_process_completes : blockAfter (.process 2003 1) at39 = some (blockOf 40 2003 true source true) := by decide
/-- CB8: interval 4 in COMPLETE starts a new frame. -/
theorem test_process_gap_in_complete :
    blockAfter (.process 2004 1) at40 =
      some (blockOf 1 2004 true (Memory.ofBytes 0x85 0x02 0x58 0xAA 0x0D) false) := by decide
/-- IN3. -/
theorem test_init_in_complete :
    blockAfter .init (blockOf 40 0x40F true source true) = some (blockOf 0 0 false source false) := by decide
/-- ID1. -/
theorem test_idle_ends_pulse :
    blockAfter .idle (blockOf 40 0x40F true source true) = some (blockOf 40 0x40F true source false) := by decide
/-- RS2: a valid PROCESS word at the same edge is not executed. -/
theorem test_reset_wins :
    Outcome.next? (step
      { block := blockOf 40 0x40F true source true
        inputs := [{ rst := true, cmdValid := true, cmd := 0x100000410 }] }) =
      some (stateOf (blockOf 0 0 false source false)) := by decide
/-- The first step after reset runs a placed word: FC5 with any buffer's byte 1 untouched. -/
theorem test_placed_word_runs :
    (Outcome.next? (step (State.reset.withFetchWord 40 0x1000003E8))).map
      (fun s => (s.block.bitCount, s.block.lastTimestamp, s.block.tsValid, s.inputs)) =
      some (1, 1000, true, []) := by decide

/-! ### The operations -/

/-- SH4, SH5, SH9. -/
theorem test_shiftIn : shiftIn 0xFF true = 0xFF ∧ shiftIn 0x80 false = 0x00 ∧ shiftIn 0xAA true = 0x55 := by decide
/-- GA4, GA5, GA8, GA13, GA14 and, at a width of 8, TW1 and TW2. -/
theorem test_gap_boundaries :
    gap (w := 32) true 0x3E8 0x3EB = false ∧ gap (w := 32) true 0x3E8 0x3EC = true ∧
    gap (w := 32) true 0x3E8 0x3E7 = true ∧ gap (w := 32) true 0xFFFFFFFF 0x2 = false ∧
    gap (w := 32) true 0xFFFFFFFF 0x3 = true ∧ gap (w := 8) true 0xFE 0x01 = false ∧
    gap (w := 8) true 0xFE 0x02 = true ∧ gap (w := 32) false 0 0 = true := by decide
/-- NM1, NM3, NM5, NM7. -/
theorem test_normalise :
    normBit 0 = false ∧ normBit 2 = true ∧ normBit 256 = true ∧ normTimestamp 32 (2 ^ 32 + 1004) = 1004 := by decide
/-- OU3, OU5, OU6. -/
theorem test_outputs :
    at39.outputs = { frame := 0x420258AA06, frameDone := false, frameValid := false, bitCount := 39 } ∧
    (blockOf 40 0 true (Memory.ofBytes 0 0 0 0 1) false).frame = 0x0000000001 ∧
    (blockOf 40 0 true (Memory.ofBytes 0x80 0 0 0 0) false).frame = 0x8000000000 := by decide
theorem test_canonical_memory :
    source.wf = true ∧ (Memory.ofBytes 0xEE 0xEE 0xEE 0xEE 0xEE) = [] ∧ Memory.wf [(5, 0)] = false ∧
    Memory.wf [(1, 0), (0, 0)] = false ∧ Memory.wf [(0, 0xEE)] = false := by decide
/-- R61: `BYTE 1007 1 0x42` starts 0 1 0. -/
theorem test_byteOp :
    (byteOp 32 1000 1 0x42).take 3 = [.process 1000 0, .process 1001 1, .process 1002 0] ∧
    bitsOp 8 255 2 2 1 = [.process 255 1, .process 1 1] := by decide
theorem test_text : Instr.text (.process 1000 1) = "P 1000 1" ∧ Instr.text .init = "INIT" := by decide

/-! ### Witnesses: what each statement assumes is met together -/

theorem witness_DecodeEncodeAgree :
    (Instr.process 0xFFFFFFFF 1).wellFormedAt 32 = true ∧ (Instr.process 255 0).wellFormedAt 8 = true ∧
    Instr.init.wellFormedAt 32 = true ∧ Instr.idle.wellFormedAt 32 = true ∧ Instr.reset.wellFormedAt 32 = true := by
  decide

theorem witness_EveryCommandWordIsLegal :
    (0x1FFFFFFFF : CommandWord 32).toNat < 2 ^ 33 ∧ 2 ^ 33 ≤ (0x200000000 : CommandWord 32).toNat := by decide

theorem witness_ReencodedWordIsCanonical :
    opField (w := 32) 0x1FFFFFFFF = false ∧ opField (w := 32) 0x3FFFFFFFF = true := by decide

/-- The four ways an edge can be sampled, and a well-formed instruction presented. -/
theorem witness_StepRunsTheSampledInstruction :
    ∃ s₁ s₂ s₃ s₄ : State,
      s₁.inputs = { rst := true, cmdValid := true, cmd := 0 } :: [] ∧
      s₂.inputs = { rst := false, cmdValid := true, cmd := 0x3FFFFFFFF } :: [] ∧
      s₃.inputs = { rst := false, cmdValid := false, cmd := 0x100000000 } :: [] ∧
      WellFormed (.process 0xFFFFFFFF 1) ∧ s₄.inputs = encode Config.TSW (.process 0xFFFFFFFF 1) :: [] :=
  ⟨State.reset.present _, State.reset.present _, State.reset.present _, State.reset.present _, rfl, rfl, rfl,
    by decide, rfl⟩

theorem witness_NothingPresentedIsIdle : (stateOf at40).inputs = [] := rfl

theorem witness_PlacedTableWordRuns :
    decodeTableWord 40 0x1FFFFFFFF = some (.process 0xFFFFFFFF 1) ∧ decodeTableWord 40 0x200000000 = some .init ∧
    decodeTableWord 0 0 = some .idle := by decide

/-- The store at its last count, and the absorb: elapsed 3 from 2000. -/
theorem witness_ProcessFollowsPseudocode :
    (2003 = 2003 % 2 ^ 32 ∧ 3 = (2003 + 2 ^ 32 - at39.lastTimestamp.toNat) % 2 ^ 32 ∧
      39 = (if at39.tsValid = false ∨ 3 < 3 then 0 else at39.bitCount.toNat) ∧ 39 < 40) ∧
    (40 = (if at40.tsValid = false ∨ 3 < 3 then 0 else at40.bitCount.toNat) ∧ ¬ 40 < 40) ∧
    (0 = (if at40.tsValid = false ∨ 3 < 4 then 0 else at40.bitCount.toNat)) := by decide

/-- Each case of R92 at a boundary: intervals 4 and 3, counts 38, 39 and 40. -/
theorem witness_ProcessHasFourCases :
    at40.gapAt (normTimestamp 32 2004) = true ∧
    ((blockOf 38 2000 true almost false).gapAt (normTimestamp 32 2003) = false ∧
      (blockOf 38 2000 true almost false).bitCount.toNat ≤ 38) ∧
    (at39.gapAt (normTimestamp 32 2003) = false ∧ at39.bitCount.toNat = 39) ∧
    (at40.gapAt (normTimestamp 32 2003) = false ∧ at40.bitCount.toNat = 40) := by decide

theorem witness_ProcessFrame :
    (∃ s', exec (.process 2003 1) (stateOf at39) = .next s') ∧
    (stateOf at39).block.storeAddress (normTimestamp Config.TSW 2003) = some 4 ∧
    (∃ s', exec (.process 2003 1) (stateOf at40) = .next s') ∧
    (stateOf at40).block.storeAddress (normTimestamp Config.TSW 2003) = none ∧
    (stateOf at40).block.bitCount.toNat = 40 :=
  ⟨⟨_, rfl⟩, by decide, ⟨_, rfl⟩, by decide, by decide⟩

theorem witness_ReturnsOneExactlyAtFortiethBit :
    (∃ r', at39.exec (.process 2003 1) = .next r') ∧ at39.bitCount.toNat = 39 ∧
    at39.gapAt (normTimestamp 32 2003) = false ∧ at39.gapAt (normTimestamp 32 2004) = true :=
  ⟨⟨_, rfl⟩, by decide, by decide, by decide⟩

theorem witness_GapDiscardsPartialFrame :
    (stateOf at39).block.gapAt (normTimestamp Config.TSW 2004) = true := by decide

theorem witness_FirstBitIsNeverDropped :
    (∃ s₀, exec .init (stateOf at40) = .next s₀) ∧ (∃ s₀, exec .reset (stateOf at40) = .next s₀) ∧
    (blockOf 0 0 false source false).bitCount = 0 ∧ (blockOf 0 7 true source false).bitCount = 0 ∧
    (blockOf 0 0 false source false).buf = (blockOf 0 7 true source false).buf :=
  ⟨⟨_, rfl⟩, ⟨_, rfl⟩, rfl, rfl, rfl⟩

/-- A counter about to wrap. -/
theorem witness_IntervalsAreModular :
    (blockOf 5 0xFFFFFFFF true source false).tsValid = true ∧
    (blockOf 5 0xFFFFFFFF true source false).lastTimestamp = normTimestamp 32 (2 ^ 33 - 1) := by decide

/-- At a width of 3 every clause has its bounds: `d` from 1 to 4, from 5 to 7, and 0. -/
theorem witness_BackwardTimestamps :
    let r : Block 3 := { bitCount := 5, lastTimestamp := 7, tsValid := true, buf := [], doneQ := false }
    r.tsValid = true ∧ 7 ≤ r.lastTimestamp.toNat ∧ 1 ≤ 4 ∧ 4 ≤ 2 ^ 3 - 4 ∧ 2 ^ 3 - 3 ≤ 5 ∧ 7 ≤ 2 ^ 3 - 1 := by decide

theorem witness_HeldWordStoresTwice :
    ∃ r₁, (blockOf 38 2000 true almost false).exec (.process 2001 1) = .next r₁ ∧ r₁.bitCount.toNat < 40 :=
  ⟨_, rfl, by decide⟩

theorem witness_ResetHasTheEffectOfInit :
    (PortSample.mk (w := 32) true true 0x100000000).rst = true := rfl

theorem witness_InitAfterRestartChangesNothing :
    (∃ s₀, exec .init (stateOf at40) = .next s₀) ∧ ∃ s₀, exec .reset (stateOf at40) = .next s₀ :=
  ⟨⟨_, rfl⟩, ⟨_, rfl⟩⟩

theorem witness_ControlStepsKeepBuffer :
    (∃ s', exec .init (stateOf at40) = .next s') ∧ (∃ s', exec .idle (stateOf at40) = .next s') ∧
    ∃ s', exec .reset (stateOf at40) = .next s' :=
  ⟨⟨_, rfl⟩, ⟨_, rfl⟩, ⟨_, rfl⟩⟩

theorem witness_at39_inv : at39.Inv := ⟨by decide, by decide, by decide, by decide⟩

theorem witness_EveryStepKeepsInvariant :
    (stateOf at39).block.Inv ∧ (∃ s', step ((stateOf at39).withFetchWord 40 0x1000007D1) = .next s') ∧
    ∃ r', at39.exec (.process 2001 1) = .next r' :=
  ⟨witness_at39_inv, ⟨_, rfl⟩, ⟨_, rfl⟩⟩

theorem witness_RestartMeetsInvariant :
    (blockOf 63 0 true source true).buf.wf = true ∧ ∃ r', (blockOf 63 0 true source true).exec .reset = .next r' :=
  ⟨by decide, ⟨_, rfl⟩⟩

theorem witness_ReachableStatesMeetR23 :
    ∃ r', Block.run [.reset, .process 1000 1, .idle, .process 1003 0] (blockOf 63 0 true source true) = .next r' :=
  ⟨_, rfl⟩

/-- A PROCESS, and a step into EMPTY from COMPLETE. -/
theorem witness_ProcessNeverLeavesEmpty :
    (∃ r', at40.exec (.process 2003 1) = .next r') ∧
    ∃ r', at40.exec .init = .next r' ∧ r'.fsmState = .empty ∧ at40.fsmState ≠ .empty :=
  ⟨⟨_, rfl⟩, _, rfl, by decide, by decide⟩

theorem witness_CompleteIsLeftByGapOrRestart :
    at40.bitCount.toNat = 40 ∧ (∃ r', at40.exec (.process 2004 1) = .next r') ∧
    ∃ r', at40.exec (.process 2003 1) = .next r' :=
  ⟨by decide, ⟨_, rfl⟩, ⟨_, rfl⟩⟩

theorem witness_NoStepWritesOutsideBuffer :
    at39.storeAddress (normTimestamp 32 2003) = some 4 ∧ (∃ r', at39.exec (.process 2003 1) = .next r') :=
  ⟨by decide, ⟨_, rfl⟩⟩

theorem witness_TouchedRegionIsExact :
    (∃ p, Block.runLogged [.process 1000 1, .idle, .process 1003 0] (blockOf 0 0 false source false, FrameLog.start) =
      .next p) ∧
    ∃ r', at39.exec (.process 2003 1) = .next r' ∧ r'.bufAt 4 ≠ at39.bufAt 4 :=
  ⟨⟨_, rfl⟩, _, rfl, by decide⟩

theorem witness_ControlIgnoresBuffer :
    at40.bitCount = (blockOf 40 2000 true almost false).bitCount ∧
    at40.lastTimestamp = (blockOf 40 2000 true almost false).lastTimestamp ∧
    at40.tsValid = (blockOf 40 2000 true almost false).tsValid ∧
    at40.doneQ = (blockOf 40 2000 true almost false).doneQ ∧ at40.buf ≠ (blockOf 40 2000 true almost false).buf := by
  decide

theorem witness_SentinelIsUnobservable :
    (blockOf 0 0 false source false).bitCount = 0 ∧ (blockOf 0 0xFFFFFFFF true source false).bitCount = 0 ∧
    (blockOf 0 0 false source false).buf = (blockOf 0 0xFFFFFFFF true source false).buf ∧
    (blockOf 0 0 false source false).doneQ = (blockOf 0 0xFFFFFFFF true source false).doneQ := by decide

theorem witness_CountingLaw :
    unbroken (w := 32) none [.idle, .process 0xFFFFFFFF 1, .idle, .process 2 0] = true := by decide

theorem witness_FortyBitsFillTheFrame :
    unbroken (w := 32) none (bitsOp 32 500 3 40 1) = true ∧ 40 ≤ (streamBits (bitsOp 32 500 3 40 1)).length := by
  decide

theorem witness_EveryStepKeepsPacking :
    (blockOf 0 0 false source false).bitCount.toNat ≤ 40 ∧ (blockOf 0 0 false source false).Packed [] ∧
    ∃ r', (blockOf 0 0 false source false).exec (.process 1000 1) = .next r' :=
  ⟨by decide, ⟨rfl, by simp⟩, ⟨_, rfl⟩⟩

theorem witness_CompletedFrameIsTheReceivedBits :
    (blockOf 0 0 false source false).bitCount = 0 ∧ (blockOf 0 0 false source false).doneQ = false ∧
    ∃ p, Block.runLogged (bitsOp 32 500 3 40 1) (blockOf 0 0 false source false, FrameLog.start) = .next p ∧
      p.1.doneQ = true ∧ p.1.frameValid = true :=
  ⟨rfl, rfl, _, rfl, by decide, by decide⟩

/-- Byte 4 from its first bit: a count of 32, eight bits. -/
theorem witness_PartialByteKeepsStaleBits :
    4 < 5 ∧ ((blockOf 32 2000 true source false).countAt (normTimestamp 32 2003)).toNat = 8 * 4 ∧
    unbroken (some (normTimestamp 32 2003)) (bitsOp 32 2004 1 7 1) = true ∧
    (streamBits (.process 2003 0 :: bitsOp 32 2004 1 7 1)).length ≤ 8 := by decide

theorem witness_OverflowAndRunOnAreAbsorbed :
    at40.bitCount.toNat = 40 ∧ at40.tsValid = true ∧
    unbroken (some at40.lastTimestamp) [.process 2003 1, .idle, .process 2006 0] = true := by decide

/-- From one completion to the next with the fewest steps: a gap and 39 further bits. -/
theorem witness_CompletionsAreSpaced :
    at40.bitCount.toNat = 40 ∧ at40.tsValid = true ∧
    (∃ r₁ r₂, Block.run (bitsOp 32 2004 1 39 1) at40 = .next r₁ ∧ r₁.exec (.process 2043 1) = .next r₂ ∧
      r₂.doneQ = true) ∧
    ∃ r₁ r₂, at39.exec (.process 2003 1) = .next r₁ ∧ r₁.exec (.process 2004 1) = .next r₂ ∧ r₁.doneQ = true :=
  ⟨by decide, by decide, ⟨_, _, rfl, rfl, by decide⟩, ⟨_, _, rfl, rfl, by decide⟩⟩

/-- The largest spacing, and a stream it makes. -/
theorem witness_FrameOfFiveBytesIsReceived :
    3 ≤ 3 ∧ (frameOp 32 0xFFFFFFF0 3 [0x42, 0x02, 0x58, 0xAA, 0x0D]).length = 40 := by decide

theorem witness_FrameOutputIsTheBuffer :
    ∃ r', at39.exec (.process 2003 1) = .next r' ∧ r'.frame ≠ at39.frame := ⟨_, rfl, by decide⟩

theorem witness_StatusOutputsFollowState :
    ∃ r', at39.exec (.process 2003 1) = .next r' ∧ r'.outputs.frameDone = true := ⟨_, rfl, by decide⟩

theorem witness_AccessOutsideBufferFaults : 5 ≤ 5 ∧ memRead source 4 = .ok 0x0D := ⟨by decide, rfl⟩

/-- A count of 40 with every address touched, and one of 0 with none. -/
theorem witness_EveryStepKeepsTouchedRegion :
    (at40.bitCount.toNat ≤ 40 ∧ (∀ a, a ∈ [0, 1, 2, 3, 4] ↔ a < (at40.bitCount.toNat + 7) / 8) ∧
      ∃ r', at40.exec (.process 2003 1) = .next r') ∧
    ∀ a, a ∈ FrameLog.start.touched ↔ a < ((blockOf 0 0 false source false).bitCount.toNat + 7) / 8 := by
  refine ⟨⟨by decide, fun a => ?_, _, rfl⟩, fun a => ?_⟩
  · show a ∈ [0, 1, 2, 3, 4] ↔ a < 5
    simp
    omega
  · show a ∈ [] ↔ a < 0
    simp

theorem witness_CopiesAreIndependent : [stateOf at39, stateOf at40][1]? = some (stateOf at40) := rfl

end Sys2Proof.Tests
end

section
/-! PROOFS. When a gap can be detected at all once a previous timestamp exists (R6, R82, R83). -/

namespace Sys2Proof.Machine

variable {w : Nat}

/-- With a previous timestamp the gap condition is the comparison of R83 alone. -/
theorem Block.gapAt_iff_of_tsValid {r : Block w} (hv : r.tsValid = true) (ts : Timestamp w) :
    r.gapAt ts = true ↔ 3 < (ts - r.lastTimestamp).toNat := by
  simp [Block.gapAt_iff, hv]

/-- The constraint of R6 in numbers: 4, the smallest elapsed value that is a gap, fits in `w` bits. -/
theorem widthOk_iff_four_lt_two_pow : Config.WidthOk w ↔ 4 < 2 ^ w :=
  (Nat.pow_lt_pow_iff_right (a := 2) (n := 2) (m := w) (by decide)).symm

/-- No elapsed value of a width below 3 exceeds `MAX_GAP` (R82, R83). -/
theorem Block.widthOk_of_gapAt {r : Block w} {ts : Timestamp w} (hv : r.tsValid = true) (hg : r.gapAt ts = true) :
    Config.WidthOk w := by
  have hover : 3 < (ts - r.lastTimestamp).toNat := (Block.gapAt_iff_of_tsValid hv ts).mp hg
  have hrange : (ts - r.lastTimestamp).toNat < 2 ^ w := BitVec.isLt _
  exact widthOk_iff_four_lt_two_pow.mpr (by omega)

/-- Where 4 is a timestamp, it is a gap at every block whose previous timestamp is 0. -/
theorem Block.gapAt_four_of_lastTimestamp_zero {r : Block w} (hw : Config.WidthOk w) (hv : r.tsValid = true)
    (hlast : r.lastTimestamp = 0#w) : r.gapAt (normTimestamp w 4) = true := by
  have hfour : (normTimestamp w 4).toNat = 4 := normTimestamp_toNat (widthOk_iff_four_lt_two_pow.mp hw)
  rw [Block.gapAt_iff_of_tsValid hv, hlast, BitVec.sub_zero, hfour]
  decide

/-- Settles O16: an elapsed value is below `2^w`, so one above 3 needs three bits; with three bits the timestamp 4
after the timestamp 0 is a gap. -/
theorem gapsNeedThreeTimestampBits : Obligations.GapsNeedThreeTimestampBits := by
  refine ⟨by decide, fun w => ⟨fun hw => ?_, ?_⟩⟩
  · exact ⟨{ bitCount := 0, lastTimestamp := 0, tsValid := true, buf := [], doneQ := false }, 4, rfl,
      Block.gapAt_four_of_lastTimestamp_zero hw rfl rfl⟩
  · rintro ⟨r, timestamp, hv, hg⟩
    exact Block.widthOk_of_gapAt hv hg

end Sys2Proof.Machine
end

section
/-! PROOFS. What INIT, IDLE and RESET leave, in particular the buffer (R15, R36, R70, R140). -/

namespace Sys2Proof.Machine

variable {w : Nat}

/-- INIT and RESET have one effect at the block (R142). -/
theorem Block.exec_restart {c : Instr} (hc : c = .init ∨ c = .reset) (r : Block w) : r.exec c = .next r.clear := by
  rcases hc with rfl | rfl <;> rfl

/-- Only PROCESS writes the buffer (R36). -/
theorem Block.exec_buf_of_not_isProcess {i : Instr} {r r' : Block w} (hi : i.isProcess = false)
    (h : r.exec i = .next r') : r'.buf = r.buf := by
  cases i with
  | process timestamp bit => cases hi
  | init => cases h; rfl
  | idle => cases h; rfl
  | reset => cases h; rfl

/-- Settles O23: the three steps are no PROCESS, and the dispatch leaves the inputs alone. -/
theorem controlStepsKeepBuffer : Obligations.ControlStepsKeepBuffer := by
  intro s s' i hi h
  obtain ⟨hblock, hinputs⟩ := exec_next_cases h
  have hcontrol : i.isProcess = false := by rcases hi with rfl | rfl | rfl <;> rfl
  have hbuf : s'.block.buf = s.block.buf := Block.exec_buf_of_not_isProcess hcontrol hblock
  exact ⟨hinputs, fun a => congrArg (Memory.byteAt · a) hbuf⟩

end Sys2Proof.Machine
end

section
/-! PROOFS. The invariants of R23: INIT, RESET and PROCESS establish them from any block, IDLE keeps them; the
canonical form of the buffer is kept by each step on its own. -/

namespace Sys2Proof.Machine

variable {w : Nat}

/-- (a), (b) and (c) of R23: the part of `Block.Inv` that does not speak of the buffer. -/
structure Block.MeetsR23 (r : Block w) : Prop where
  /-- R23 (a). -/
  count_le : r.bitCount.toNat ≤ Config.FRAME_BITS
  /-- R23 (b). -/
  valid_iff : r.tsValid = false ↔ r.bitCount.toNat = 0
  /-- R23 (c). -/
  done_count : r.doneQ = true → r.bitCount.toNat = Config.FRAME_BITS

/-- The invariant is R23 and the canonical form of the buffer. -/
theorem Block.inv_iff {r : Block w} : r.Inv ↔ r.MeetsR23 ∧ r.buf.wf = true :=
  ⟨fun ⟨hle, hvalid, hdone, hwf⟩ => ⟨⟨hle, hvalid, hdone⟩, hwf⟩,
    fun ⟨⟨hle, hvalid, hdone⟩, hwf⟩ => ⟨hle, hvalid, hdone, hwf⟩⟩

/-- What INIT and RESET leave meets R23, whatever stood before. -/
theorem Block.meetsR23_clear (r : Block w) : r.clear.MeetsR23 where
  count_le := Nat.zero_le _
  valid_iff := ⟨fun _ => rfl, fun _ => rfl⟩
  done_count := nofun

/-- What PROCESS leaves meets R23, whatever stood before: the count is 1 to 40 and a timestamp exists. -/
theorem Block.meetsR23_of_process {r r' : Block w} {timestamp bit : Nat} (h : r.process timestamp bit = .next r') :
    r'.MeetsR23 := by
  obtain ⟨hstore, hcount, -, hvalid, -, hdone⟩ | ⟨-, hcount, -, hvalid, -, hdone⟩ := Block.process_cases h
  · have hlt := (storeEnable_iff _).mp hstore
    have hsucc := toNat_succ hstore
    rw [← hcount] at hsucc
    refine ⟨?_, ?_, fun hd => ?_⟩
    · rw [hsucc]
      exact hlt
    · simp [hvalid, hsucc]
    · rw [hsucc, (completes_iff _).mp (hdone.symm.trans hd)]
  · exact ⟨by simp [hcount], by simp [hcount, hvalid], by simp [hdone]⟩

/-- Every step keeps R23. -/
theorem Block.exec_preserves_meetsR23 (i : Instr) (r r' : Block w) (hr : r.MeetsR23) (h : r.exec i = .next r') :
    r'.MeetsR23 := by
  cases i with
  | process timestamp bit => exact Block.meetsR23_of_process h
  | init => cases h; exact r.meetsR23_clear
  | idle => cases h; exact ⟨hr.count_le, hr.valid_iff, nofun⟩
  | reset => cases h; exact r.meetsR23_clear

/-- Every step keeps the canonical form of the buffer: a PROCESS that stores writes inside it (R31). -/
theorem Block.exec_preserves_buf_wf {i : Instr} {r r' : Block w} (hwf : r.buf.wf = true) (h : r.exec i = .next r') :
    r'.buf.wf = true := by
  cases i with
  | process timestamp bit =>
    obtain ⟨hstore, -, -, -, hbuf, -⟩ | ⟨-, -, -, -, hbuf, -⟩ := Block.process_cases h
    · rw [hbuf]
      exact Memory.wf_put _ (byteIndex_lt hstore) hwf
    · rwa [hbuf]
  | init | idle | reset => rwa [Block.exec_buf_of_not_isProcess rfl h]

/-- Every step keeps the invariant. -/
theorem Block.exec_preserves_inv {i : Instr} {r r' : Block w} (hr : r.Inv) (h : r.exec i = .next r') : r'.Inv := by
  obtain ⟨hcontrol, hwf⟩ := Block.inv_iff.mp hr
  exact Block.inv_iff.mpr ⟨Block.exec_preserves_meetsR23 i r r' hcontrol h, Block.exec_preserves_buf_wf hwf h⟩

/-- Settles O26: an edge takes one step of the block, and that step keeps R23 and the canonical form. -/
theorem everyStepKeepsInvariant : Obligations.EveryStepKeepsInvariant := by
  refine ⟨fun s s' hinv hstep => ?_, fun w i r r' hinv hexec => Block.exec_preserves_inv hinv hexec⟩
  exact Block.exec_preserves_inv (r := s.afterSample.block) hinv (exec_next_cases hstep).1

/-- INIT and RESET establish the invariant where the buffer is in canonical form. -/
theorem Block.inv_clear {r : Block w} (hwf : r.buf.wf = true) : r.clear.Inv :=
  Block.inv_iff.mpr ⟨r.meetsR23_clear, hwf⟩

/-- Settles O27: reset, INIT and RESET all leave a cleared block. -/
theorem restartMeetsInvariant : Obligations.RestartMeetsInvariant := by
  refine ⟨Block.inv_clear (r := State.reset.block) rfl, fun w r r' hwf h => ?_⟩
  rcases h with h | h
  · cases h; exact Block.inv_clear hwf
  · cases h; exact Block.inv_clear hwf

/-- A run that completes is a first step that completed and then a run of the rest (R39). -/
theorem Block.run_cons_next {i : Instr} {l : List Instr} {r r' : Block w} (h : Block.run (i :: l) r = .next r') :
    ∃ r₁, r.exec i = .next r₁ ∧ Block.run l r₁ = .next r' := by
  rw [Block.run] at h
  split at h
  · exact ⟨_, ‹_›, h⟩
  · cases h
  · cases h

/-- What every step keeps holds after every stream of steps. -/
theorem Block.run_preserves {P : Block w → Prop} (hstep : ∀ i r r', P r → r.exec i = .next r' → P r')
    {l : List Instr} {r r' : Block w} (hr : P r) (h : Block.run l r = .next r') : P r' := by
  induction l generalizing r with
  | nil => cases h; exact hr
  | cons i l ih =>
    obtain ⟨r₁, hexec, hrun⟩ := Block.run_cons_next h
    exact ih (hstep i r r₁ hr hexec) hrun

/-- Settles O28: the first step leaves a cleared block, which meets R23, and the stream's steps keep it. -/
theorem reachableStatesMeetR23 : Obligations.ReachableStatesMeetR23 := by
  intro w c l r r' hc h
  obtain ⟨r₁, hfirst, hrun⟩ := Block.run_cons_next h
  rw [Block.exec_restart hc] at hfirst
  cases hfirst
  obtain ⟨hle, hvalid, hdone⟩ := Block.run_preserves Block.exec_preserves_meetsR23 r.meetsR23_clear hrun
  exact ⟨hle, hvalid, hdone⟩

end Sys2Proof.Machine
end

section
/-! PROOFS. The sentinel cannot be observed (R108): with nothing received, any step but IDLE leaves one and the same
block whatever `ts_valid` and `last_timestamp` were, and IDLE shows neither of them. -/

namespace Sys2Proof.Machine

variable {w : Nat}

/-- Two blocks with nothing received that differ at most in `ts_valid` and `last_timestamp` (R108). -/
structure Block.SentinelTwins (r₁ r₂ : Block w) : Prop where
  count₁ : r₁.bitCount = 0
  count₂ : r₂.bitCount = 0
  buf_eq : r₁.buf = r₂.buf
  doneQ_eq : r₁.doneQ = r₂.doneQ

/-- Twins show the same outputs: no port carries the timestamp or its flag (R55, R56). -/
theorem Block.SentinelTwins.outputs_eq {r₁ r₂ : Block w} (h : r₁.SentinelTwins r₂) : r₁.outputs = r₂.outputs := by
  simp [Block.outputs, Block.frame, Block.bufAt, Block.frameValid, h.count₁, h.count₂, h.buf_eq, h.doneQ_eq]

/-- Twins are still twins after IDLE. -/
theorem Block.SentinelTwins.idle {r₁ r₂ : Block w} (h : r₁.SentinelTwins r₂) :
    Block.SentinelTwins { r₁ with doneQ := false } { r₂ with doneQ := false } :=
  ⟨h.count₁, h.count₂, h.buf_eq, rfl⟩

/-- With nothing received PROCESS works with the count 0, whether or not it detects a gap (R84). -/
theorem Block.countAt_of_bitCount_zero {r : Block w} (h : r.bitCount = 0) (ts : Timestamp w) : r.countAt ts = 0 := by
  cases hg : r.gapAt ts with
  | true => exact Block.countAt_of_gap hg
  | false => exact (Block.countAt_of_not_gap hg).trans h

/-- With nothing received PROCESS stores bit number 0, and what it leaves depends on the buffer alone (R108). -/
theorem Block.process_of_bitCount_zero {r : Block w} (h : r.bitCount = 0) (timestamp bit : Nat) :
    r.process timestamp bit = .next
      { bitCount := 1
        lastTimestamp := normTimestamp w timestamp
        tsValid := true
        buf := r.buf.put 0 (shiftIn (r.buf.byteAt 0) (normBit bit))
        doneQ := false } := by
  have hcount : r.countAt (normTimestamp w timestamp) = 0 := Block.countAt_of_bitCount_zero h _
  rw [Block.process_store (by rw [hcount]; rfl), hcount]
  rfl

/-- Any step but IDLE takes twins to the same block. -/
theorem Block.SentinelTwins.exec_eq {r₁ r₂ : Block w} (h : r₁.SentinelTwins r₂) {i : Instr} (hi : i ≠ .idle) :
    r₁.exec i = r₂.exec i := by
  cases i with
  | process timestamp bit =>
    simp [Block.process_of_bitCount_zero h.count₁, Block.process_of_bitCount_zero h.count₂, h.buf_eq]
  | init => simp [Block.clear, h.buf_eq]
  | idle => exact absurd rfl hi
  | reset => simp [Block.clear, h.buf_eq]

/-- A trace depends on the block only through what the first step leaves. -/
theorem Block.trace_cons_congr {i : Instr} {r₁ r₂ : Block w} (h : r₁.exec i = r₂.exec i) (l : List Instr) :
    Block.trace (i :: l) r₁ = Block.trace (i :: l) r₂ := by
  simp only [Block.trace, h]

/-- The return values depend on the block only through what the first step leaves. -/
theorem Block.returns_cons_congr {i : Instr} {r₁ r₂ : Block w} (h : r₁.exec i = r₂.exec i) (l : List Instr) :
    Block.returns (i :: l) r₁ = Block.returns (i :: l) r₂ := by
  simp only [Block.returns, h]

/-- IDLE shows the outputs with `done_q` cleared (R72). -/
theorem Block.trace_idle_cons (l : List Instr) (r : Block w) :
    Block.trace (.idle :: l) r =
      Block.outputs { r with doneQ := false } :: Block.trace l { r with doneQ := false } := rfl

/-- IDLE returns nothing (R50). -/
theorem Block.returns_idle_cons (l : List Instr) (r : Block w) :
    Block.returns (.idle :: l) r = Block.returns l { r with doneQ := false } := rfl

/-- Twins show the same outputs along every stream. -/
theorem Block.SentinelTwins.trace_eq {r₁ r₂ : Block w} (h : r₁.SentinelTwins r₂) (l : List Instr) :
    Block.trace l r₁ = Block.trace l r₂ := by
  induction l generalizing r₁ r₂ with
  | nil => rfl
  | cons i l ih =>
    by_cases hi : i = .idle
    · subst hi
      rw [Block.trace_idle_cons, Block.trace_idle_cons, h.idle.outputs_eq, ih h.idle]
    · exact Block.trace_cons_congr (h.exec_eq hi) l

/-- Twins return the same values along every stream. -/
theorem Block.SentinelTwins.returns_eq {r₁ r₂ : Block w} (h : r₁.SentinelTwins r₂) (l : List Instr) :
    Block.returns l r₁ = Block.returns l r₂ := by
  induction l generalizing r₁ r₂ with
  | nil => rfl
  | cons i l ih =>
    by_cases hi : i = .idle
    · subst hi
      rw [Block.returns_idle_cons, Block.returns_idle_cons, ih h.idle]
    · exact Block.returns_cons_congr (h.exec_eq hi) l

/-- Settles O34: the two blocks stay twins through IDLE steps, and the first other step makes them one. -/
theorem sentinelIsUnobservable : Obligations.SentinelIsUnobservable := by
  intro w r₁ r₂ l hcount₁ hcount₂ hbuf hdone
  have htwins : r₁.SentinelTwins r₂ := ⟨hcount₁, hcount₂, hbuf, hdone⟩
  exact ⟨htwins.trace_eq l, htwins.returns_eq l⟩

end Sys2Proof.Machine
end

section
/-! PROOFS. What a PROCESS does to each byte of the buffer (R31, R36, R86, R87). -/

namespace Sys2Proof.Machine

variable {w : Nat}

/-- The buffer after the read-modify-write of R86 at an address, as `Block.process_cases` answers it. -/
def Memory.shiftAt (m : Memory) (a : Nat) (nb : Bool) : Memory := m.put a (shiftIn (m.byteAt a) nb)

/-- The byte shifted. -/
@[simp] theorem Memory.byteAt_shiftAt_same (m : Memory) (a : Nat) (nb : Bool) :
    (m.shiftAt a nb).byteAt a = shiftIn (m.byteAt a) nb := Memory.byteAt_put_same ..

/-- Every other byte. -/
theorem Memory.byteAt_shiftAt_other (m : Memory) {a a' : Nat} (nb : Bool) (h : a' ≠ a) :
    (m.shiftAt a nb).byteAt a' = m.byteAt a' := Memory.byteAt_put_other _ _ h

/-- PROCESS leaves every byte but the one it stores to (R86), and all of them when it stores none (R87). -/
theorem Block.process_bufAt_of_storeAddress_ne {r r' : Block w} {timestamp bit a : Nat}
    (h : r.process timestamp bit = .next r') (ha : r.storeAddress (normTimestamp w timestamp) ≠ some a) :
    r'.bufAt a = r.bufAt a := by
  obtain ⟨hstore, -, -, -, hbuf, -⟩ | ⟨-, -, -, -, hbuf, -⟩ := Block.process_cases h
  · have hne : a ≠ byteIndex (r.countAt (normTimestamp w timestamp)) := by
      rintro rfl
      exact ha (Block.storeAddress_of_store hstore)
    rw [Block.bufAt, hbuf]
    exact Memory.byteAt_put_other _ _ hne
  · rw [Block.bufAt, hbuf, Block.bufAt]

/-- Where nothing is stored, the count that PROCESS works with disables the store (R87). -/
theorem Block.storeEnable_of_storeAddress_none {r : Block w} {ts : Timestamp w} (h : r.storeAddress ts = none) :
    storeEnable (r.countAt ts) = false := by
  cases hs : storeEnable (r.countAt ts) with
  | false => rfl
  | true => simp [Block.storeAddress_of_store hs] at h

/-- The store address is one of the five bytes (R31). -/
theorem Block.storeAddress_lt {r : Block w} {ts : Timestamp w} {a : Nat} (h : r.storeAddress ts = some a) : a < 5 := by
  cases hs : storeEnable (r.countAt ts) with
  | true =>
    rw [Block.storeAddress_of_store hs] at h
    cases h
    exact byteIndex_lt hs
  | false => simp [Block.storeAddress_of_absorb hs] at h

/-- Only a PROCESS that stores to a byte changes it (R36). -/
theorem Block.storeAddress_of_bufAt_ne {i : Instr} {r r' : Block w} {a : Nat} (h : r.exec i = .next r')
    (hne : r'.bufAt a ≠ r.bufAt a) :
    ∃ timestamp bit, i = .process timestamp bit ∧ r.storeAddress (normTimestamp w timestamp) = some a := by
  cases i with
  | process timestamp bit =>
    refine ⟨timestamp, bit, rfl, ?_⟩
    by_contra ha
    exact hne (Block.process_bufAt_of_storeAddress_ne h ha)
  | init | idle | reset =>
    exact absurd (congrArg (Memory.byteAt · a) (Block.exec_buf_of_not_isProcess rfl h)) hne

/-- Settles O46: 5 and above fail the range test of both accesses. -/
theorem accessOutsideBufferFaults : Obligations.AccessOutsideBufferFaults := by
  intro m a v ha
  have hout : ¬ a < Config.FRAME_BYTES := Nat.not_lt.mpr ha
  exact ⟨if_neg hout, if_neg hout⟩

/-- Settles O31: a changed byte was stored to, and the store address is below 5. -/
theorem noStepWritesOutsideBuffer : Obligations.NoStepWritesOutsideBuffer := by
  refine ⟨fun w r ts a => Block.storeAddress_lt, fun w r r' i h a ha => ?_⟩
  by_contra hne
  obtain ⟨timestamp, bit, -, haddr⟩ := Block.storeAddress_of_bufAt_ne h hne
  exact absurd (Block.storeAddress_lt haddr) (Nat.not_lt.mpr ha)

/-- Settles O11: the frame of PROCESS at the block; an absorb writes the count 40. -/
theorem processFrame : Obligations.ProcessFrame := by
  intro s s' timestamp bit h
  obtain ⟨hblock, hinputs⟩ := exec_next_cases h
  refine ⟨hinputs, fun a ha a' hne => ?_, fun hnone => ⟨fun a' => ?_, fun hcount => ?_⟩⟩
  · refine Block.process_bufAt_of_storeAddress_ne hblock ?_
    rw [ha]
    simpa using hne.symm
  · exact Block.process_bufAt_of_storeAddress_ne hblock (by simp [hnone])
  · have habsorb := Block.storeEnable_of_storeAddress_none hnone
    have hnext := Host.Outcome.next.inj ((Block.process_absorb habsorb).symm.trans hblock)
    rw [← hnext]
    exact BitVec.eq_of_toNat_eq hcount.symm

end Sys2Proof.Machine
end

section
/-! PROOFS. The log of the current frame (R32, R33): a relation between count, buffer and log that holds of a frame
with nothing received and that every store keeps is kept by every step. -/

namespace Sys2Proof.Machine

variable {w : Nat}

/-- The log a PROCESS appends to: a gap discards what was received (R84, R109). -/
def FrameLog.afterGap (r : Block w) (ts : Timestamp w) (g : FrameLog) : FrameLog :=
  if r.gapAt ts then FrameLog.start else g

/-- The log after one bit has been stored to an address. -/
def FrameLog.push (g : FrameLog) (a : Nat) (nb : Bool) : FrameLog where
  bits := g.bits ++ [nb]
  touched := g.touched ++ [a]

/-- A PROCESS that stores is logged by its bit and its store address, after the gap test. -/
theorem FrameLog.after_process_of_storeAddress {r : Block w} {timestamp a : Nat}
    (h : r.storeAddress (normTimestamp w timestamp) = some a) (bit : Nat) (g : FrameLog) :
    FrameLog.after r (.process timestamp bit) g =
      (FrameLog.afterGap r (normTimestamp w timestamp) g).push a (normBit bit) := by
  simp only [FrameLog.after, h]
  rfl

/-- A PROCESS that absorbs adds nothing to the log. -/
theorem FrameLog.after_process_of_storeAddress_none {r : Block w} {timestamp : Nat}
    (h : r.storeAddress (normTimestamp w timestamp) = none) (bit : Nat) (g : FrameLog) :
    FrameLog.after r (.process timestamp bit) g = FrameLog.afterGap r (normTimestamp w timestamp) g := by
  simp only [FrameLog.after, h]
  rfl

/-- A count up to 40 absorbs only in COMPLETE and without a gap (R87). -/
theorem Block.complete_of_absorb {r : Block w} {ts : Timestamp w} (hle : r.bitCount.toNat ≤ 40)
    (h : storeEnable (r.countAt ts) = false) : r.bitCount = 40#6 ∧ r.gapAt ts = false := by
  cases hg : r.gapAt ts with
  | true => simp [Block.countAt_of_gap hg, storeEnable] at h
  | false =>
    rw [Block.countAt_of_not_gap hg] at h
    have hge : ¬ r.bitCount.toNat < 40 := by simp [← storeEnable_iff, h]
    exact ⟨BitVec.eq_of_toNat_eq (show r.bitCount.toNat = 40 by omega), rfl⟩

/-- A relation between the count, the buffer and the log of the current frame that holds of a frame with nothing
received and that a store of R86 keeps. -/
structure FrameLog.KeptByStores (P : Count → Memory → FrameLog → Prop) : Prop where
  /-- Nothing received: whatever the buffer holds. -/
  start : ∀ m, P 0 m FrameLog.start
  /-- One bit stored at the byte that the count selects. -/
  store : ∀ {n m g}, storeEnable n = true → P n m g → ∀ nb,
    P (n + 1) (m.shiftAt (byteIndex n) nb) (g.push (byteIndex n) nb)

/-- The relation survives the gap test of PROCESS. -/
theorem FrameLog.KeptByStores.afterGap {P : Count → Memory → FrameLog → Prop} (hP : FrameLog.KeptByStores P)
    {r : Block w} {g : FrameLog} (h : P r.bitCount r.buf g) (ts : Timestamp w) :
    P (r.countAt ts) r.buf (FrameLog.afterGap r ts g) := by
  cases hg : r.gapAt ts with
  | true =>
    rw [Block.countAt_of_gap hg, FrameLog.afterGap, if_pos hg]
    exact hP.start r.buf
  | false =>
    rw [Block.countAt_of_not_gap hg, FrameLog.afterGap, if_neg (by simp [hg])]
    exact h

/-- Every step from a count up to 40 keeps the relation. -/
theorem FrameLog.KeptByStores.exec {P : Count → Memory → FrameLog → Prop} (hP : FrameLog.KeptByStores P) {i : Instr}
    {r r' : Block w} {g : FrameLog} (hle : r.bitCount.toNat ≤ 40) (hg : P r.bitCount r.buf g)
    (h : r.exec i = .next r') : P r'.bitCount r'.buf (FrameLog.after r i g) := by
  cases i with
  | process timestamp bit =>
    have hgap := hP.afterGap hg (normTimestamp w timestamp)
    obtain ⟨hstore, hcount, -, -, hbuf, -⟩ | ⟨habsorb, hcount, -, -, hbuf, -⟩ := Block.process_cases h
    · rw [FrameLog.after_process_of_storeAddress (Block.storeAddress_of_store hstore), hcount, hbuf]
      exact hP.store hstore hgap (normBit bit)
    · obtain ⟨hcomplete, hnogap⟩ := Block.complete_of_absorb hle habsorb
      rw [Block.countAt_of_not_gap hnogap, hcomplete] at hgap
      rwa [FrameLog.after_process_of_storeAddress_none (Block.storeAddress_of_absorb habsorb), hcount, hbuf]
  | init => cases h; exact hP.start r.buf
  | idle => cases h; exact hg
  | reset => cases h; exact hP.start r.buf

/-- A logged run that completes is a first step that completed and then a logged run of the rest (R39). -/
theorem Block.runLogged_cons_next {i : Instr} {l : List Instr} {r r' : Block w} {g g' : FrameLog}
    (h : Block.runLogged (i :: l) (r, g) = .next (r', g')) :
    ∃ r₁, r.exec i = .next r₁ ∧ Block.runLogged l (r₁, FrameLog.after r i g) = .next (r', g') := by
  rw [Block.runLogged] at h
  split at h
  · exact ⟨_, ‹_›, h⟩
  · cases h
  · cases h

/-- What every step keeps of the block and its log holds after every logged run. -/
theorem Block.runLogged_preserves {Q : Block w → FrameLog → Prop}
    (hstep : ∀ i r r' g, Q r g → r.exec i = .next r' → Q r' (FrameLog.after r i g)) {l : List Instr}
    {r r' : Block w} {g g' : FrameLog} (hr : Q r g) (h : Block.runLogged l (r, g) = .next (r', g')) : Q r' g' := by
  induction l generalizing r g with
  | nil => cases h; exact hr
  | cons i l ih =>
    obtain ⟨r₁, hexec, hrun⟩ := Block.runLogged_cons_next h
    exact ih (hstep i r r₁ g hr hexec) hrun

end Sys2Proof.Machine
end

section
/-! PROOFS. The region of the buffer written since the last gap, INIT or RESET (R32, the half-open reading of C1). -/

namespace Sys2Proof.Machine

variable {w : Nat}

/-- The count is at most 40 and the addresses logged are those below `ceil(count / 8)`, whatever the buffer holds. -/
def FrameLog.TouchedBelow (n : Count) (_ : Memory) (g : FrameLog) : Prop :=
  n.toNat ≤ 40 ∧ ∀ a, a ∈ g.touched ↔ a < (n.toNat + 7) / 8

/-- A store at the count `n` adds the address `n div 8`, which is what `ceil` gains from `n` to `n + 1`. -/
theorem FrameLog.keptByStores_touchedBelow : FrameLog.KeptByStores FrameLog.TouchedBelow where
  start _ := ⟨Nat.zero_le _, fun a => by simp [FrameLog.start]⟩
  store := by
    intro n m g hstore ⟨_, htouched⟩ nb
    have hlt := (storeEnable_iff n).mp hstore
    have hceil (a : Nat) : a < (n.toNat + 7) / 8 ∨ a = n.toNat / 8 ↔ a < (n.toNat + 1 + 7) / 8 := by omega
    rw [FrameLog.TouchedBelow, toNat_succ hstore]
    exact ⟨hlt, fun a => by simpa [FrameLog.push, htouched, byteIndex, Config.BYTE_BITS] using hceil a⟩

/-- Every step keeps the touched region exact. -/
theorem Block.exec_preserves_touchedBelow {i : Instr} {r r' : Block w} {g : FrameLog}
    (hg : FrameLog.TouchedBelow r.bitCount r.buf g) (h : r.exec i = .next r') :
    FrameLog.TouchedBelow r'.bitCount r'.buf (FrameLog.after r i g) :=
  FrameLog.keptByStores_touchedBelow.exec hg.1 hg h

/-- Settles O47: the relation is the statement's, and every store keeps it. -/
theorem everyStepKeepsTouchedRegion : Obligations.EveryStepKeepsTouchedRegion := by
  intro w r r' i g hle htouched h
  exact Block.exec_preserves_touchedBelow ⟨hle, htouched⟩ h

/-- Settles O32: the touched region by induction over the logged run; a byte that changes was stored to, and the log
ends with the store address. -/
theorem touchedRegionIsExact : Obligations.TouchedRegionIsExact := by
  refine ⟨fun w r r' l g hcount h => ?_, fun w r r' i g a h hne => ?_⟩
  · have hstart : FrameLog.TouchedBelow r.bitCount r.buf FrameLog.start := by
      rw [hcount]
      exact FrameLog.keptByStores_touchedBelow.start r.buf
    obtain ⟨-, htouched⟩ := Block.runLogged_preserves (Q := fun r g => FrameLog.TouchedBelow r.bitCount r.buf g)
      (fun _ _ _ _ => Block.exec_preserves_touchedBelow) hstart h
    exact htouched
  · obtain ⟨timestamp, bit, rfl, haddr⟩ := Block.storeAddress_of_bufAt_ne h hne
    rw [FrameLog.after_process_of_storeAddress haddr]
    simp [FrameLog.push]

end Sys2Proof.Machine
end

section
/-! PROOFS. The packing of the current frame's bits into the buffer (R33, R34). -/

namespace Sys2Proof.Machine

/-- The buffer's part of `Block.Packed`: every bit of the frame stands at its place. -/
def Memory.Holds (m : Memory) (bits : List Bool) : Prop :=
  ∀ k b, bits[k]? = some b →
    (m.byteAt (k / 8)).getLsbD (bitsInByte bits.length (k / 8) - 1 - k % 8) = b

/-- `Block.Packed` in terms of the count and the buffer. -/
theorem Block.packed_iff {w : Nat} {r : Block w} {bits : List Bool} :
    r.Packed bits ↔ bits.length = r.bitCount.toNat ∧ r.buf.Holds bits := Iff.rfl

/-- A bit that has just arrived is the latest of its byte, so at bit 0 (R34). -/
theorem bitsInByte_latest (n : Nat) : bitsInByte (n + 1) (n / 8) - 1 - n % 8 = 0 := by
  simp only [bitsInByte, Config.BYTE_BITS]
  omega

/-- An arriving bit moves an earlier bit of its own byte up by one place (R34). -/
theorem bitsInByte_succ_same {n k : Nat} (hk : k < n) (h : k / 8 = n / 8) :
    bitsInByte (n + 1) (k / 8) - 1 - k % 8 = (bitsInByte n (k / 8) - 1 - k % 8) + 1 ∧
      bitsInByte (n + 1) (k / 8) - 1 - k % 8 < 8 := by
  simp only [bitsInByte, Config.BYTE_BITS]
  omega

/-- An arriving bit leaves the places in the earlier bytes, which are full (R34). -/
theorem bitsInByte_succ_other {n k : Nat} (hk : k < n) (h : k / 8 ≠ n / 8) :
    bitsInByte (n + 1) (k / 8) = bitsInByte n (k / 8) := by
  simp only [bitsInByte, Config.BYTE_BITS]
  omega

/-- Shifting the next bit into the byte that the count selects keeps every bit at its place: the new one at bit 0, the
earlier ones of that byte one place up, those of other bytes where they were. -/
theorem Memory.Holds.shiftAt {m : Memory} {bits : List Bool} (h : m.Holds bits) (nb : Bool) :
    (m.shiftAt (bits.length / 8) nb).Holds (bits ++ [nb]) := by
  intro k b hk
  rw [List.length_append, List.length_singleton]
  obtain hlt | rfl | hgt := Nat.lt_trichotomy k bits.length
  · rw [List.getElem?_append_left hlt] at hk
    have hold := h k b hk
    by_cases hbyte : k / 8 = bits.length / 8
    · obtain ⟨hsucc, hplace⟩ := bitsInByte_succ_same hlt hbyte
      rw [← hbyte, Memory.byteAt_shiftAt_same, shiftIn_getLsbD, decide_eq_true hplace, hsucc]
      simpa using hold
    · rw [Memory.byteAt_shiftAt_other _ _ hbyte, bitsInByte_succ_other hlt hbyte]
      exact hold
  · have hnew : nb = b := by simpa using hk
    rw [bitsInByte_latest, Memory.byteAt_shiftAt_same, shiftIn_getLsbD, if_pos rfl, hnew]
  · simp [hgt] at hk

/-- As many bits are logged as the count says, and the buffer holds them. -/
def FrameLog.PackedIn (n : Count) (m : Memory) (g : FrameLog) : Prop :=
  g.bits.length = n.toNat ∧ m.Holds g.bits

/-- The count selects the byte of the bit whose number is the count (R33). -/
theorem FrameLog.keptByStores_packedIn : FrameLog.KeptByStores FrameLog.PackedIn where
  start _ := ⟨rfl, nofun⟩
  store := by
    intro n m g hstore ⟨hlength, hholds⟩ nb
    refine ⟨?_, ?_⟩
    · rw [toNat_succ hstore, ← hlength]
      exact List.length_append
    · have hindex : byteIndex n = g.bits.length / 8 := by rw [hlength]; rfl
      rw [hindex]
      exact hholds.shiftAt nb

/-- Settles O37: the relation is `Block.Packed`, and every store keeps it. -/
theorem everyStepKeepsPacking : Obligations.EveryStepKeepsPacking := by
  intro w r r' i g hle hpacked h
  exact FrameLog.keptByStores_packedIn.exec hle (Block.packed_iff.mp hpacked) h

end Sys2Proof.Machine
end

section
/-! PROOFS. What a partly filled byte holds (R34): the bits of a gap-free stream enter one byte by one shift each. -/

namespace Sys2Proof.Machine

variable {w : Nat}

/-- The bits of a byte after several have been shifted in, the first one first. -/
theorem foldl_shiftIn_getLsbD (old : Byte) (bits : List Bool) {p : Nat} (hp : p < 8) :
    (bits.foldl shiftIn old).getLsbD p =
      if p < bits.length then bits.getD (bits.length - 1 - p) false else old.getLsbD (p - bits.length) := by
  induction bits using List.reverseRecOn generalizing p with
  | nil => rfl
  | append_singleton bits b ih =>
    rw [List.foldl_append, List.foldl_cons, List.foldl_nil, shiftIn_getLsbD, List.length_append,
      List.length_singleton]
    cases p with
    | zero => simp
    | succ p =>
      have hlast : bits.length + 1 - 1 - (p + 1) = bits.length - 1 - p := by omega
      rw [if_neg p.succ_ne_zero, decide_eq_true hp, Bool.true_and, Nat.add_sub_cancel, ih (by omega), hlast,
        Nat.add_sub_add_right]
      by_cases hlt : p < bits.length
      · rw [if_pos hlt, if_pos (Nat.succ_lt_succ hlt), List.getD_append _ _ _ _ (by omega)]
      · rw [if_neg hlt, if_neg (by omega)]

/-- One byte of the buffer has had bits shifted in, the others are as they were. -/
structure Memory.ShiftedAt (m m' : Memory) (i : Nat) (bits : List Bool) : Prop where
  byte : m'.byteAt i = bits.foldl shiftIn (m.byteAt i)
  others : ∀ a, a ≠ i → m'.byteAt a = m.byteAt a

/-- No bit shifted in. -/
theorem Memory.shiftedAt_nil (m : Memory) (i : Nat) : m.ShiftedAt m i [] := ⟨rfl, fun _ _ => rfl⟩

/-- One bit shifted in, then the rest. -/
theorem Memory.ShiftedAt.cons {m m' : Memory} {i : Nat} {b : Bool} {bits : List Bool}
    (h : (m.shiftAt i b).ShiftedAt m' i bits) : m.ShiftedAt m' i (b :: bits) where
  byte := by rw [h.byte, Memory.byteAt_shiftAt_same, List.foldl_cons]
  others a ha := by rw [h.others a ha, Memory.byteAt_shiftAt_other _ _ ha]

/-- A run whose first step completes goes on from what that step left (R39). -/
theorem Block.run_cons_of_exec {i : Instr} {r r₁ : Block w} (h : r.exec i = .next r₁) (l : List Instr) :
    Block.run (i :: l) r = Block.run l r₁ := by
  simp only [Block.run, h]

/-- Without a gap after the previous timestamp PROCESS works with `bit_count` (R84, R105). -/
theorem Block.countAt_of_noGapAfter {r : Block w} {last ts : Timestamp w} (hprev : r.previous = some last)
    (h : noGapAfter (some last) ts = true) : r.countAt ts = r.bitCount := by
  apply Block.countAt_of_not_gap
  rw [Block.gapAt_eq_of_previous, hprev]
  simpa [noGapAfter] using h

/-- A PROCESS whose bit belongs into byte `i` of the buffer shifts it in there. -/
theorem Block.process_fills {i : Nat} (hi : i < 5) {r : Block w} {timestamp : Nat}
    (hindex : (r.countAt (normTimestamp w timestamp)).toNat / 8 = i) (bit : Nat) :
    ∃ r' : Block w, r.exec (.process timestamp bit) = .next r' ∧
      r'.previous = some (normTimestamp w timestamp) ∧
      r'.bitCount.toNat = (r.countAt (normTimestamp w timestamp)).toNat + 1 ∧
      r'.buf = r.buf.shiftAt i (normBit bit) := by
  have hstore : storeEnable (r.countAt (normTimestamp w timestamp)) = true :=
    (storeEnable_iff _).mpr (by omega)
  subst hindex
  exact ⟨_, Block.process_store hstore, rfl, toNat_succ hstore, rfl⟩

/-- A gap-free stream whose bits all belong into byte `i` shifts them in there, one after another. -/
theorem Block.run_unbroken_fills {i : Nat} (hi : i < 5) {l : List Instr} {r : Block w} {last : Timestamp w}
    (hprev : r.previous = some last) (hl : unbroken (some last) l = true) (hlow : 8 * i ≤ r.bitCount.toNat)
    (hhigh : r.bitCount.toNat + (streamBits l).length ≤ 8 * i + 8) :
    ∃ r' : Block w, Block.run l r = .next r' ∧
      r'.bitCount.toNat = r.bitCount.toNat + (streamBits l).length ∧ r.buf.ShiftedAt r'.buf i (streamBits l) := by
  induction l generalizing r last with
  | nil => exact ⟨r, rfl, rfl, r.buf.shiftedAt_nil i⟩
  | cons c l ih =>
    cases c with
    | process timestamp bit =>
      obtain ⟨hnogap, hrest⟩ := Bool.and_eq_true_iff.mp hl
      rw [streamBits, List.length_cons] at hhigh ⊢
      have hcountAt := Block.countAt_of_noGapAfter hprev hnogap
      obtain ⟨r₁, hexec, hprev₁, hcount₁, hbuf₁⟩ :=
        Block.process_fills hi (timestamp := timestamp) (by rw [hcountAt]; omega) bit
      rw [hcountAt] at hcount₁
      obtain ⟨r', hrun, hcount, hshifted⟩ := ih hprev₁ hrest (by omega) (by omega)
      rw [hbuf₁] at hshifted
      exact ⟨r', (Block.run_cons_of_exec hexec l).trans hrun, by omega, hshifted.cons⟩
    | idle => exact ih (r := { r with doneQ := false }) hprev hl hlow hhigh
    | init | reset => cases hl

/-- Settles O39: the first bit goes into byte `i` with or without a gap, the rest follow without one. -/
theorem partialByteKeepsStaleBits : Obligations.PartialByteKeepsStaleBits := by
  rintro w r timestamp bit i l bits hi hcountAt hl rfl hlength
  rw [streamBits, List.length_cons] at hlength
  obtain ⟨r₁, hexec, hprev₁, hcount₁, hbuf₁⟩ := Block.process_fills hi (r := r) (timestamp := timestamp) (by omega) bit
  obtain ⟨r', hrun, hcount, hshifted⟩ := Block.run_unbroken_fills hi hprev₁ hl (by omega) (by omega)
  rw [hbuf₁] at hshifted
  obtain ⟨hbyte, hothers⟩ := hshifted.cons
  refine ⟨r', (Block.run_cons_of_exec hexec l).trans hrun, ?_, fun p hp => ?_, hothers⟩
  · rw [streamBits, List.length_cons]
    omega
  · rw [Block.bufAt, hbyte]
    exact foldl_shiftIn_getLsbD _ _ hp

end Sys2Proof.Machine
end

section
/-! PROOFS. Decoding and encoding (R52, R54, R57): the fields of a command word in numbers, and what each word and
each port sample decodes to. -/

namespace Sys2Proof

variable {w : Nat}

/-- The wire `rst` comes first (R54, R150). -/
theorem decodePorts_of_rst {p : PortSample w} (hrst : p.rst = true) : decodePorts p = .reset :=
  if_pos hrst

/-- A command that is executed (R54). -/
theorem decodePorts_of_cmdValid {p : PortSample w} (hrst : p.rst = false) (hvalid : p.cmdValid = true) :
    decodePorts p = decodeCommand p.cmd := by
  simp [decodePorts, hrst, hvalid]

/-- Neither RESET nor a command (R54, R72). -/
theorem decodePorts_of_no_command {p : PortSample w} (hrst : p.rst = false) (hvalid : p.cmdValid = false) :
    decodePorts p = .idle := by
  simp [decodePorts, hrst, hvalid]

/-- The port sample of an executed command decodes as its word. -/
@[simp] theorem decodePorts_commandSample (cmd : CommandWord w) : decodePorts (commandSample cmd) = decodeCommand cmd :=
  decodePorts_of_cmdValid rfl rfl

/-- A word with `op = 1` is INIT (R57). -/
theorem decodeCommand_of_opField {cmd : CommandWord w} (h : opField cmd = true) : decodeCommand cmd = .init :=
  if_pos h

/-- A word with `op = 0` is the PROCESS of its fields (R57). -/
theorem decodeCommand_of_not_opField {cmd : CommandWord w} (h : opField cmd = false) :
    decodeCommand cmd = .process (timestampField cmd).toNat (bitField cmd).toNat :=
  if_neg (by simp [h])

/-- The word of a PROCESS whose operands fit their fields decodes to it. -/
theorem decodeCommand_processWord {timestamp bit : Nat} (ht : TimestampFits w timestamp) (hb : BitFits bit) :
    decodeCommand (processWord w timestamp bit) = .process timestamp bit := by
  rw [decodeCommand_of_not_opField (opField_processWord ..), timestampField_processWord, bitField_processWord,
    normTimestamp_toNat ht, normBit_toNat hb]

/-- What the ports show for a well-formed step decodes to it. -/
theorem decodePorts_encode {i : Instr} (h : i.wellFormedAt w = true) : decodePorts (encode w i) = i := by
  cases i with
  | process timestamp bit =>
    obtain ⟨ht, hb⟩ := Bool.and_eq_true_iff.mp h
    rw [encode, decodePorts_commandSample, decodeCommand_processWord (of_decide_eq_true ht) (of_decide_eq_true hb)]
  | init => rw [encode, decodePorts_commandSample, decodeCommand_of_opField (opField_initWord w)]
  | idle => exact decodePorts_of_no_command rfl rfl
  | reset => exact decodePorts_of_rst rfl

/-- Settles O1: the fields of the word written are the operands, which fit them. -/
theorem decodeEncodeAgree : Obligations.DecodeEncodeAgree :=
  fun _ _ h => decodePorts_encode h

/-- The field `ts` in numbers. -/
theorem timestampField_toNat (cmd : CommandWord w) : (timestampField cmd).toNat = cmd.toNat % 2 ^ w :=
  BitVec.toNat_setWidth ..

/-- The field `b` in numbers. -/
theorem bitField_toNat (cmd : CommandWord w) : (bitField cmd).toNat = cmd.toNat / 2 ^ w % 2 :=
  Nat.toNat_testBit ..

/-- `op` is the top bit of the word. -/
theorem opField_eq_msb (cmd : CommandWord w) : opField cmd = cmd.msb :=
  (BitVec.msb_eq_getLsbD_last cmd).symm

/-- `op = 0` exactly in the lower half of the words. -/
theorem opField_eq_false_iff (cmd : CommandWord w) : opField cmd = false ↔ cmd.toNat < 2 ^ (w + 1) := by
  rw [opField_eq_msb, BitVec.msb_eq_false_iff_two_mul_lt, Nat.pow_succ' (n := w + 1)]
  exact Nat.mul_lt_mul_left Nat.two_pos

/-- With `op = 0` the field `b` is all that stands above `ts`. -/
theorem bitField_toNat_of_not_opField {cmd : CommandWord w} (h : opField cmd = false) :
    (bitField cmd).toNat = cmd.toNat / 2 ^ w := by
  have hlt : cmd.toNat < 2 ^ w * 2 := (opField_eq_false_iff cmd).mp h
  rw [bitField_toNat, Nat.mod_eq_of_lt (Nat.div_lt_of_lt_mul hlt)]

/-- The operands read from a word fit its fields. -/
theorem decodeCommand_wellFormedAt (cmd : CommandWord w) : (decodeCommand cmd).wellFormedAt w = true := by
  cases h : opField cmd with
  | true => rw [decodeCommand_of_opField h]; rfl
  | false =>
    rw [decodeCommand_of_not_opField h]
    exact Bool.and_eq_true_iff.mpr ⟨decide_eq_true (BitVec.isLt _), decide_eq_true (Bool.toNat_lt _)⟩

/-- Settles O2: `op` splits the words at `2^(w+1)`, and below it the other fields are quotient and remainder by
`2^w`. -/
theorem everyCommandWordIsLegal : Obligations.EveryCommandWordIsLegal := by
  intro w cmd
  refine ⟨fun hlow => ?_, fun hhigh => ?_, decodeCommand_wellFormedAt cmd, initWord_toNat w⟩
  · have hop : opField cmd = false := (opField_eq_false_iff cmd).mpr hlow
    rw [decodeCommand_of_not_opField hop, timestampField_toNat, bitField_toNat_of_not_opField hop]
  · have hop : opField cmd ≠ false := mt (opField_eq_false_iff cmd).mp (Nat.not_lt.mpr hhigh)
    exact decodeCommand_of_opField (Bool.eq_true_of_not_eq_false hop)

/-- A word with `op = 0` is the one written for its fields. -/
theorem processWord_fields {cmd : CommandWord w} (h : opField cmd = false) :
    processWord w (timestampField cmd).toNat (bitField cmd).toNat = cmd := by
  apply BitVec.eq_of_toNat_eq
  rw [processWord_toNat, normTimestamp_toNat (BitVec.isLt _), normBit_toNat (Bool.toNat_lt _),
    bitField_toNat_of_not_opField h, timestampField_toNat]
  exact Nat.div_add_mod' ..

/-- Settles O3: a PROCESS word is written again from its fields, INIT has one word. -/
theorem reencodedWordIsCanonical : Obligations.ReencodedWordIsCanonical := by
  refine fun w cmd => ⟨fun h => ?_, fun h => ?_⟩
  · rw [decodeCommand_of_not_opField h, encodeCommand, processWord_fields h]
  · rw [decodeCommand_of_opField h, encodeCommand]

/-- Settles O4: the decoder evaluated on the twelve vectors. -/
theorem vectorsDecode : Obligations.VectorsDecode := by
  unfold Obligations.VectorsDecode
  decide

end Sys2Proof
end

section
/-! PROOFS. The instruction that an edge takes (R51, R54, R150). -/

namespace Sys2Proof.Machine

/-- An edge takes the step its first sample decodes to, and the coming samples move up. -/
theorem step_of_inputs_cons {s : State} {p : PortSample Config.TSW} {rest : List (PortSample Config.TSW)}
    (h : s.inputs = p :: rest) : step s = exec (decodePorts p) { s with inputs := rest } := by
  rw [step, State.sample_of_inputs_cons h, State.afterSample, h, List.tail_cons]

/-- Settles O5: the priorities of the decoder, and decoding after encoding. -/
theorem stepRunsTheSampledInstruction : Obligations.StepRunsTheSampledInstruction := by
  refine ⟨fun s p rest h => ?_, fun s i rest hwf h => ?_⟩
  · rw [step_of_inputs_cons h]
    refine ⟨fun hrst => ?_, fun hrst hvalid => ?_, fun hrst hvalid => ?_⟩
    · rw [decodePorts_of_rst hrst]
    · rw [decodePorts_of_cmdValid hrst hvalid]
    · rw [decodePorts_of_no_command hrst hvalid]
  · rw [step_of_inputs_cons h, decodePorts_encode hwf]

/-- The ports that stand for a table word decode as the table word does. -/
theorem decodePorts_tableSample {nbits word : Nat} {i : Instr} (h : decodeTableWord nbits word = some i) :
    decodePorts (tableSample nbits word) = i := by
  by_cases hbits : nbits = 0
  · rw [decodeTableWord, if_pos hbits] at h
    exact Option.some.inj h
  · by_cases hport : word < 2 ^ (Config.TSW + 2)
    · simp only [decodeTableWord, if_neg hbits, decodeNat, commandOfNat, if_pos hport] at h
      rw [tableSample, if_neg hbits, decodePorts_commandSample]
      exact Option.some.inj h
    · simp only [decodeTableWord, if_neg hbits, decodeNat, commandOfNat, if_neg hport] at h
      cases h

/-- Settles O7: the placed word is the next sample, and taking it leaves the state as it was. -/
theorem placedTableWordRuns : Obligations.PlacedTableWordRuns := by
  intro s nbits word i h
  rw [State.withFetchWord, step, State.present_sample, State.present_afterSample, decodePorts_tableSample h]

end Sys2Proof.Machine
end

section
/-! PROOFS. PROCESS uses its operands only as normalised by R53. -/

namespace Sys2Proof.Machine

variable {w : Nat}

/-- `ts = timestamp mod 2^TSW` in numbers (R53). -/
theorem normTimestamp_toNat_eq_mod (w timestamp : Nat) : (normTimestamp w timestamp).toNat = timestamp % 2 ^ w :=
  BitVec.toNat_ofNat ..

/-- A timestamp already reduced to the field stands for the same field value. -/
@[simp] theorem normTimestamp_mod (w timestamp : Nat) :
    normTimestamp w (timestamp % 2 ^ w) = normTimestamp w timestamp :=
  BitVec.eq_of_toNat_eq (by simp [normTimestamp_toNat_eq_mod])

/-- A bit already on the one wire is that wire's value. -/
@[simp] theorem normBit_bool_toNat (b : Bool) : normBit b.toNat = b := by
  cases b <;> rfl

/-- Only 0 is the bit 0 (R53). -/
theorem normBit_eq_false_iff (bit : Nat) : normBit bit = false ↔ bit = 0 := by
  simp [normBit]

/-- A bit already reduced to 0 or 1 stands for the same wire. -/
theorem normBit_reduced (bit : Nat) : normBit (if bit = 0 then 0 else 1) = normBit bit := by
  by_cases h : bit = 0
  · rw [if_pos h, h]
  · rw [if_neg h, (Bool.not_eq_false _).mp (mt (normBit_eq_false_iff bit).mp h)]
    rfl

/-- Operands with the same normal forms have the same effect (R53). -/
theorem Block.process_congr {t t' b b' : Nat} (ht : normTimestamp w t = normTimestamp w t')
    (hb : normBit b = normBit b') (r : Block w) : r.process t b = r.process t' b' := by
  simp only [Block.process, ht, hb]

/-- PROCESS of the reduced operands is PROCESS. -/
theorem Block.exec_process_reduced (r : Block w) (timestamp bit : Nat) :
    r.exec (.process timestamp bit) = r.exec (.process (timestamp % 2 ^ w) (if bit = 0 then 0 else 1)) :=
  Block.process_congr (normTimestamp_mod w timestamp).symm (normBit_reduced bit).symm r

/-- Settles O8: the block's PROCESS depends on the normalised operands alone, and the dispatch is the block's. -/
theorem operandsAreNormalised : Obligations.OperandsAreNormalised := by
  refine ⟨normTimestamp_toNat_eq_mod, normBit_eq_false_iff, normBit_bool_toNat,
    fun w => Block.exec_process_reduced, fun s timestamp bit => ?_, fun w => timestampField_toNat⟩
  rw [exec_eq_onBlock, exec_eq_onBlock, State.onBlock, State.onBlock, Block.exec_process_reduced]

end Sys2Proof.Machine
end

section
/-! PROOFS. The output ports (R55, R56): the frame's bits, and which step changes them or shows `frame_done`. -/

namespace Sys2Proof.Machine

variable {w : Nat}

/-- Byte `a` stands in the frame above the bytes after it (R55). -/
theorem Block.frame_getLsbD_byte (r : Block w) {a p : Nat} (ha : a < 5) (hp : p < 8) :
    r.frame.getLsbD (32 - 8 * a + p) = (r.bufAt a).getLsbD p := by
  rw [Block.frame, BitVec.getLsbD_append, BitVec.getLsbD_append, BitVec.getLsbD_append, BitVec.getLsbD_append]
  interval_cases a <;> grind

/-- The frame's bits from the top: bit number `k` is that of byte `k div 8` (R55). -/
theorem Block.frame_getLsbD (r : Block w) {k : Nat} (hk : k < 40) :
    r.frame.getLsbD (39 - k) = (r.bufAt (k / 8)).getLsbD (7 - k % 8) := by
  have hplace : 39 - k = 32 - 8 * (k / 8) + (7 - k % 8) := by omega
  rw [hplace, r.frame_getLsbD_byte (by omega) (by omega)]

/-- Byte `a` of the frame, byte 0 on top (R55). -/
theorem Block.frame_extractLsb' (r : Block w) {a : Nat} (ha : a < 5) :
    r.frame.extractLsb' (32 - 8 * a) 8 = r.bufAt a := by
  apply BitVec.eq_of_getLsbD_eq
  intro p hp
  rw [BitVec.getLsbD_extractLsb', decide_eq_true hp, Bool.true_and, r.frame_getLsbD_byte ha hp]

/-- A frame that differs differs in one of its bytes. -/
theorem Block.exists_bufAt_ne_of_frame_ne {r r' : Block w} (h : r'.frame ≠ r.frame) : ∃ a, r'.bufAt a ≠ r.bufAt a := by
  by_contra! hall
  exact h (by simp only [Block.frame, hall])

/-- A PROCESS that has a store address works with a count below 40 (R86, R87). -/
theorem Block.countAt_lt_of_storeAddress {r : Block w} {ts : Timestamp w} {a : Nat} (h : r.storeAddress ts = some a) :
    (r.countAt ts).toNat < 40 := by
  rw [← storeEnable_iff]
  by_contra hs
  simp [Block.storeAddress_of_absorb (Bool.eq_false_of_not_eq_true hs)] at h

/-- Settles O43: bytes and bits of the concatenation; a changed frame has a changed byte, which was stored to. -/
theorem frameOutputIsTheBuffer : Obligations.FrameOutputIsTheBuffer := by
  intro w r
  refine ⟨r.frame_extractLsb' (a := 0) (by decide), r.frame_extractLsb' (a := 1) (by decide),
    r.frame_extractLsb' (a := 2) (by decide), r.frame_extractLsb' (a := 3) (by decide),
    r.frame_extractLsb' (a := 4) (by decide), fun k => r.frame_getLsbD, fun i r' h hne => ?_⟩
  obtain ⟨a, hbyte⟩ := Block.exists_bufAt_ne_of_frame_ne hne
  obtain ⟨timestamp, bit, hi, haddr⟩ := Block.storeAddress_of_bufAt_ne h hbyte
  exact ⟨timestamp, bit, hi, Block.countAt_lt_of_storeAddress haddr⟩

/-- `frame_valid` is `bit_count = 40` (R56). -/
theorem Block.frameValid_iff (r : Block w) : r.frameValid = true ↔ r.bitCount.toNat = 40 := decide_eq_true_iff

/-- A PROCESS returns 1 exactly when it works with the count 39 (R88). -/
theorem Block.process_doneQ_iff {r r' : Block w} {timestamp bit : Nat} (h : r.process timestamp bit = .next r') :
    r'.doneQ = true ↔ (r.countAt (normTimestamp w timestamp)).toNat = 39 := by
  obtain ⟨-, -, -, -, -, hdone⟩ | ⟨habsorb, -, -, -, -, hdone⟩ := Block.process_cases h
  · rw [hdone, completes_iff]
  · have hge : ¬ (r.countAt (normTimestamp w timestamp)).toNat < 40 := by simp [← storeEnable_iff, habsorb]
    simp only [hdone, Bool.false_eq_true, false_iff]
    omega

/-- INIT, IDLE and RESET clear `done_q` (R70, R72, R140). -/
theorem Block.exec_doneQ_of_not_isProcess {i : Instr} {r r' : Block w} (hi : i.isProcess = false)
    (h : r.exec i = .next r') : r'.doneQ = false := by
  cases i with
  | process timestamp bit => cases hi
  | init | idle | reset => cases h; rfl

/-- `done_q` is 1 exactly after a PROCESS that stored the 40th bit (R56). -/
theorem Block.exec_doneQ_iff {i : Instr} {r r' : Block w} (h : r.exec i = .next r') :
    r'.doneQ = true ↔
      ∃ timestamp bit, i = .process timestamp bit ∧ (r.countAt (normTimestamp w timestamp)).toNat = 39 := by
  cases i with
  | process timestamp bit => simp [Block.process_doneQ_iff h]
  | init | idle | reset => simp [Block.exec_doneQ_of_not_isProcess rfl h]

/-- A step that leaves `done_q = 1` leaves the frame complete, from any block (R23 (c), R56). -/
theorem Block.exec_frameValid_of_doneQ {i : Instr} {r r' : Block w} (h : r.exec i = .next r') (hdone : r'.doneQ = true) :
    r'.frameValid = true := by
  obtain ⟨timestamp, bit, rfl, -⟩ := (Block.exec_doneQ_iff h).mp hdone
  exact r'.frameValid_iff.mpr ((Block.meetsR23_of_process h).done_count hdone)

/-- Settles O44: the outputs are fields of the state, and `done_q` is 1 after the 40th bit alone. -/
theorem statusOutputsFollowState : Obligations.StatusOutputsFollowState :=
  fun _ _ r' _ h => ⟨Block.exec_doneQ_iff h, Block.exec_frameValid_of_doneQ h, r'.frameValid_iff, rfl⟩

end Sys2Proof.Machine
end

section
/-! PROOFS. The pseudo-operations of R61 as streams of equally spaced PROCESS steps, and the frame that five bytes make
(R33, R106, S6). -/

namespace Sys2Proof.Machine

variable {w : Nat}

/-- One PROCESS per bit, `dt` apart, timestamps modulo `2^TSW`: the stream that BYTE and FRAME write out (R61). -/
def spacedSteps (w ts dt : Nat) : List Bool → List Instr
  | [] => []
  | b :: bits => .process (ts % 2 ^ w) b.toNat :: spacedSteps w (ts + dt) dt bits

/-- The bits of a byte, most significant first. -/
def byteBits (v : Byte) : List Bool := (List.range 8).map fun j => v.getLsbD (7 - j)

@[simp] theorem byteBits_length (v : Byte) : (byteBits v).length = 8 := by simp [byteBits]

/-- The second part of a stream begins where the first one ends. -/
theorem spacedSteps_append (w ts dt : Nat) (bits bits' : List Bool) :
    spacedSteps w ts dt (bits ++ bits') = spacedSteps w ts dt bits ++ spacedSteps w (ts + bits.length * dt) dt bits' := by
  induction bits generalizing ts with
  | nil => simp [spacedSteps]
  | cons b bits ih =>
    have hstart : ts + (bits.length + 1) * dt = ts + dt + bits.length * dt := by ring
    simp [spacedSteps, ih, hstart]

/-- The stream of the bits that a function gives, step by step. -/
theorem spacedSteps_map_range (w ts dt : Nat) (f : Nat → Bool) (n : Nat) :
    spacedSteps w ts dt ((List.range n).map f) =
      (List.range n).map fun j => .process ((ts + j * dt) % 2 ^ w) (f j).toNat := by
  induction n with
  | zero => rfl
  | succ n ih => simp [List.range_succ, spacedSteps_append, spacedSteps, ih]

/-- BYTE is the stream of the byte's bits. -/
theorem byteOp_eq_spacedSteps (w ts dt : Nat) (v : Byte) : byteOp w ts dt v = spacedSteps w ts dt (byteBits v) :=
  (spacedSteps_map_range w ts dt (fun j => v.getLsbD (7 - j)) 8).symm

/-- FRAME is the stream of the bits of all its bytes. -/
theorem frameOp_eq_spacedSteps (w ts dt : Nat) (vs : List Byte) :
    frameOp w ts dt vs = spacedSteps w ts dt (vs.flatMap byteBits) := by
  induction vs generalizing ts with
  | nil => rfl
  | cons v vs ih =>
    rw [frameOp, ih, byteOp_eq_spacedSteps, List.flatMap_cons, spacedSteps_append, byteBits_length]

/-- A spacing up to 3 is no gap, whether or not the timestamp wraps (R83, R90). -/
theorem noGapAfter_add {dt : Nat} (hdt : dt ≤ 3) (ts : Nat) :
    noGapAfter (some (normTimestamp w ts)) (normTimestamp w (ts + dt)) = true := by
  have hsub : normTimestamp w (ts + dt) - normTimestamp w ts = normTimestamp w dt := by
    simp [normTimestamp, BitVec.ofNat_add, BitVec.add_comm]
  have hle : (normTimestamp w dt).toNat ≤ dt := normTimestamp_toNat_eq_mod w dt ▸ Nat.mod_le ..
  have hnot : ¬ overGap (normTimestamp w ts) (normTimestamp w (ts + dt)) = true := by
    rw [overGap_iff, hsub]
    omega
  simp [noGapAfter, hnot]

/-- The bits of the current frame are packed, and `frame_done` is shown if they are all 40. -/
structure Block.Received (r : Block w) (bits : List Bool) : Prop where
  packed : r.Packed bits
  done : r.doneQ = r.frameValid

/-- After INIT nothing is received. -/
theorem Block.received_clear (r : Block w) : r.clear.Received [] := ⟨⟨rfl, nofun⟩, rfl⟩

/-- A PROCESS without a gap receives its bit, while the frame is not complete. -/
theorem Block.Received.process {r : Block w} {bits : List Bool} {timestamp : Nat} (h : r.Received bits)
    (hcountAt : r.countAt (normTimestamp w timestamp) = r.bitCount) (hlength : bits.length < 40) (bit : Nat) :
    ∃ r' : Block w, r.exec (.process timestamp bit) = .next r' ∧ r'.previous = some (normTimestamp w timestamp) ∧
      r'.Received (bits ++ [normBit bit]) := by
  obtain ⟨hcount, hholds⟩ := Block.packed_iff.mp h.packed
  have hstore : storeEnable r.bitCount = true := (storeEnable_iff _).mpr (hcount ▸ hlength)
  have hsucc : (r.bitCount + 1).toNat = bits.length + 1 := by rw [toNat_succ hstore, hcount]
  have hindex : byteIndex r.bitCount = bits.length / 8 := by rw [hcount]; rfl
  refine ⟨_, Block.process_store (hcountAt.symm ▸ hstore), rfl, ⟨Block.packed_iff.mpr ⟨?_, ?_⟩, ?_⟩⟩
  · rw [hcountAt, hsucc]
    exact List.length_append
  · rw [hcountAt, hindex]
    exact hholds.shiftAt (normBit bit)
  · rw [hcountAt]
    simp only [completes, Block.frameValid, toNat_succ hstore]

/-- A stream of PROCESS steps up to 3 apart receives its bits, up to 40 in all. -/
theorem Block.Received.run_spacedSteps {dt : Nat} (hdt : dt ≤ 3) {r : Block w} {got bits : List Bool} {ts : Nat}
    (h : r.Received got) (hcountAt : r.countAt (normTimestamp w ts) = r.bitCount)
    (hlength : got.length + bits.length ≤ 40) :
    ∃ r' : Block w, Block.run (spacedSteps w ts dt bits) r = .next r' ∧ r'.Received (got ++ bits) := by
  induction bits generalizing r got ts with
  | nil => exact ⟨r, rfl, by rwa [List.append_nil]⟩
  | cons b bits ih =>
    rw [List.length_cons] at hlength
    obtain ⟨r₁, hexec, hprev, hreceived⟩ :=
      h.process (timestamp := ts % 2 ^ w) (by rwa [normTimestamp_mod]) (by omega) b.toNat
    rw [normTimestamp_mod] at hprev
    rw [normBit_bool_toNat] at hreceived
    obtain ⟨r', hrun, hall⟩ :=
      ih hreceived (Block.countAt_of_noGapAfter hprev (noGapAfter_add hdt ts)) (by simp; omega)
    exact ⟨r', (Block.run_cons_of_exec hexec _).trans hrun, by simpa using hall⟩

/-- The bits of several bytes, byte by byte. -/
theorem flatMap_byteBits_getElem? {vs : List Byte} {i j : Nat} {v : Byte} (hv : vs[i]? = some v) (hj : j < 8) :
    (vs.flatMap byteBits)[8 * i + j]? = some (v.getLsbD (7 - j)) := by
  induction vs generalizing i with
  | nil => simp at hv
  | cons u vs ih =>
    rw [List.flatMap_cons]
    cases i with
    | zero =>
      have huv : u = v := by simpa using hv
      rw [List.getElem?_append_left (by simpa using hj)]
      simp [byteBits, hj, huv]
    | succ i =>
      have hindex : 8 * (i + 1) + j - 8 = 8 * i + j := by omega
      rw [List.getElem?_append_right (by rw [byteBits_length]; omega), byteBits_length, hindex]
      exact ih (by simpa using hv)

/-- Eight bits a byte. -/
theorem flatMap_byteBits_length (vs : List Byte) : (vs.flatMap byteBits).length = 8 * vs.length := by
  simp [List.length_flatMap, Nat.mul_comm]

/-- In a complete frame each byte holds its eight bits, the first one most significant (R33, R106). -/
theorem Block.Packed.bufAt_eq {r : Block w} {vs : List Byte} (h : r.Packed (vs.flatMap byteBits))
    (hlength : vs.length = 5) {i : Nat} {v : Byte} (hv : vs[i]? = some v) : r.bufAt i = v := by
  obtain ⟨-, hholds⟩ := Block.packed_iff.mp h
  have hi : i < 5 := hlength ▸ (List.getElem?_eq_some_iff.mp hv).1
  apply BitVec.eq_of_getLsbD_eq
  intro p hp
  have hbit := hholds _ _ (flatMap_byteBits_getElem? hv (j := 7 - p) (by omega))
  have hbyte : (8 * i + (7 - p)) / 8 = i := by omega
  have hplace : bitsInByte 40 i - 1 - (8 * i + (7 - p)) % 8 = p := by
    simp only [bitsInByte, Config.BYTE_BITS]
    omega
  have hsource : 7 - (7 - p) = p := by omega
  rwa [flatMap_byteBits_length, hlength, hbyte, hplace, hsource] at hbit

/-- Settles O42: FRAME's 40 bits are received after INIT, at whatever timestamp the first comes. -/
theorem frameOfFiveBytesIsReceived : Obligations.FrameOfFiveBytesIsReceived := by
  intro w r ts0 dt v0 v1 v2 v3 v4 hdt
  have hlength : ([v0, v1, v2, v3, v4].flatMap byteBits).length = 40 := flatMap_byteBits_length _
  obtain ⟨r', hrun, hpacked, hdone⟩ := r.received_clear.run_spacedSteps (ts := ts0) hdt
    (Block.countAt_of_bitCount_zero rfl _) ((Nat.zero_add _).trans hlength).le
  rw [← frameOp_eq_spacedSteps] at hrun
  have hbyte {i : Nat} {v : Byte} (hv : [v0, v1, v2, v3, v4][i]? = some v) : r'.bufAt i = v := hpacked.bufAt_eq rfl hv
  have hvalid : r'.frameValid = true := r'.frameValid_iff.mpr (hpacked.1.symm.trans hlength)
  exact ⟨r', (Block.run_cons_of_exec r.exec_init _).trans hrun, hbyte rfl, hbyte rfl, hbyte rfl, hbyte rfl, hbyte rfl,
    hdone.trans hvalid, hvalid⟩

end Sys2Proof.Machine
end

section
/-! PROOFS. IDLE changes nothing but `done_q`, and no step reads `done_q` (R16, R72), so the IDLE steps of a stream can
be left out. -/

namespace Sys2Proof.Machine

variable {w : Nat}

/-- Every step completes at the block (R112, R122). -/
theorem Block.exec_completes (i : Instr) (r : Block w) : Outcome.Completes (r.exec i) := by
  cases i with
  | process timestamp bit =>
    cases hs : storeEnable (r.countAt (normTimestamp w timestamp)) with
    | true => exact ⟨_, Block.process_store hs⟩
    | false => exact ⟨_, Block.process_absorb hs⟩
  | init | idle | reset => exact ⟨_, rfl⟩

/-- Two blocks that differ at most in `done_q`. -/
structure Block.SameButDone (r₁ r₂ : Block w) : Prop where
  bitCount_eq : r₁.bitCount = r₂.bitCount
  lastTimestamp_eq : r₁.lastTimestamp = r₂.lastTimestamp
  tsValid_eq : r₁.tsValid = r₂.tsValid
  buf_eq : r₁.buf = r₂.buf

/-- A block and itself. -/
theorem Block.SameButDone.refl (r : Block w) : r.SameButDone r := ⟨rfl, rfl, rfl, rfl⟩

/-- IDLE at one of the two blocks alone (R72). -/
theorem Block.SameButDone.idle_left {r₁ r₂ : Block w} (h : r₁.SameButDone r₂) :
    Block.SameButDone { r₁ with doneQ := false } r₂ :=
  ⟨h.bitCount_eq, h.lastTimestamp_eq, h.tsValid_eq, h.buf_eq⟩

/-- Any step but IDLE takes both blocks to the same one: it reads no `done_q` and writes its own. -/
theorem Block.SameButDone.exec_eq {r₁ r₂ : Block w} (h : r₁.SameButDone r₂) {i : Instr} (hi : i ≠ .idle) :
    r₁.exec i = r₂.exec i := by
  obtain ⟨bc₁, lt₁, tv₁, buf₁, dq₁⟩ := r₁
  obtain ⟨bc₂, lt₂, tv₂, buf₂, dq₂⟩ := r₂
  obtain ⟨rfl, rfl, rfl, rfl⟩ := h
  cases i with
  | process timestamp bit => rfl
  | init => rfl
  | idle => exact absurd rfl hi
  | reset => rfl

/-- The return values of a stream whose first step completes (R50, R88). -/
theorem Block.returns_cons_of_exec {i : Instr} {r r₁ : Block w} (h : r.exec i = .next r₁) (l : List Instr) :
    Block.returns (i :: l) r = if i.isProcess then r₁.doneQ :: Block.returns l r₁ else Block.returns l r₁ := by
  simp only [Block.returns, h]

/-- From two blocks that differ at most in `done_q`, a stream at the one and the stream without its IDLE steps at the
other complete with the same return values and leave two such blocks. -/
theorem Block.SameButDone.run_filter_ne_idle {r₁ r₂ : Block w} (h : r₁.SameButDone r₂) (l : List Instr) :
    ∃ r₁' r₂' : Block w, Block.run l r₁ = .next r₁' ∧ Block.run (l.filter (· ≠ .idle)) r₂ = .next r₂' ∧
      r₁'.SameButDone r₂' ∧ Block.returns l r₁ = Block.returns (l.filter (· ≠ .idle)) r₂ := by
  induction l generalizing r₁ r₂ with
  | nil => exact ⟨r₁, r₂, rfl, rfl, h, rfl⟩
  | cons i l ih =>
    by_cases hi : i = .idle
    · subst hi
      rw [List.filter_cons_of_neg (by simp), Block.run_cons_of_exec r₁.exec_idle, Block.returns_idle_cons]
      exact ih h.idle_left
    · obtain ⟨r, hexec₂⟩ := r₂.exec_completes i
      have hexec₁ : r₁.exec i = .next r := (h.exec_eq hi).trans hexec₂
      rw [List.filter_cons_of_pos (by simpa using hi), Block.run_cons_of_exec hexec₁, Block.run_cons_of_exec hexec₂,
        Block.returns_cons_of_exec hexec₁, Block.returns_cons_of_exec hexec₂]
      obtain ⟨r₁', r₂', hrun₁, hrun₂, hsame, hreturns⟩ := ih (.refl r)
      exact ⟨r₁', r₂', hrun₁, hrun₂, hsame, by rw [hreturns]⟩

/-- Settles O24: both streams start from one block, and differ at most in `done_q` throughout. -/
theorem idleStepsNeverMatter : Obligations.IdleStepsNeverMatter := by
  intro w r l
  obtain ⟨r₁, r₂, hrun₁, hrun₂, ⟨hcount, hlast, hvalid, hbuf⟩, hreturns⟩ :=
    (Block.SameButDone.refl r).run_filter_ne_idle l
  exact ⟨r₁, r₂, hrun₁, hrun₂, hcount, hlast, hvalid, hbuf, hreturns⟩

end Sys2Proof.Machine
end

section
/-! PROOFS. INIT, RESET and IDLE at the whole state, and an edge at which nothing is presented (R70 to R72, R145). -/

namespace Sys2Proof.Machine

/-- IDLE at the whole state (R72). -/
theorem exec_idle (s : State) : exec .idle s = .next { s with block := { s.block with doneQ := false } } :=
  exec_of_block_next s.block.exec_idle

/-- INIT and RESET have one effect at the whole state (R142). -/
theorem exec_restart {c : Instr} (hc : c = .init ∨ c = .reset) (s : State) :
    exec c s = .next { s with block := s.block.clear } :=
  exec_of_block_next (Block.exec_restart hc s.block)

/-- Clearing twice is clearing once (R71). -/
@[simp] theorem Block.clear_clear {w : Nat} (r : Block w) : r.clear.clear = r.clear := rfl

/-- Where nothing is presented, taking the sample leaves the state as it was. -/
theorem State.afterSample_of_inputs_nil {s : State} (h : s.inputs = []) : s.afterSample = s := by
  obtain ⟨block, inputs⟩ := s
  subst h
  rfl

/-- Settles O6: the sample of such an edge is no command, so the edge takes IDLE. -/
theorem nothingPresentedIsIdle : Obligations.NothingPresentedIsIdle := by
  intro s h
  have hidle : decodePorts s.sample = .idle := by
    rw [State.sample_of_inputs_nil h]
    exact decodePorts_of_no_command rfl rfl
  rw [step, hidle, State.afterSample_of_inputs_nil h, exec_idle]

/-- Settles O19: INIT leaves the cleared block, whose buffer is the old one. -/
theorem initClearsAllButBuffer : Obligations.InitClearsAllButBuffer :=
  fun s => ⟨_, exec_restart (.inl rfl) s, rfl, rfl, rfl, rfl, rfl, rfl, rfl, rfl, rfl, rfl⟩

/-- Settles O20: IDLE leaves the same block with `done_q` cleared. -/
theorem idleClearsDoneOnly : Obligations.IdleClearsDoneOnly :=
  fun s => ⟨_, exec_idle s, rfl, rfl, rfl, rfl, rfl, rfl⟩

/-- Settles O22: either restart leaves the cleared block, and clearing it again changes nothing. -/
theorem initAfterRestartChangesNothing : Obligations.InitAfterRestartChangesNothing := by
  intro s s₀ h
  have hs₀ : s₀ = { s with block := s.block.clear } := by
    rcases h with h | h
    · exact Host.Outcome.next.inj (h.symm.trans (exec_restart (.inl rfl) s))
    · exact Host.Outcome.next.inj (h.symm.trans (exec_restart (.inr rfl) s))
  subst hs₀
  refine ⟨?_, exec_restart (.inl rfl) s, exec_restart (.inr rfl) s⟩
  rw [exec_restart (.inl rfl), Block.clear_clear]

end Sys2Proof.Machine
end

section
/-! PROOFS. What PROCESS does to every part of the block, by the count it works with: a count below 40 stores, any other
absorbs (R80, R86 to R88, R92). -/

namespace Sys2Proof.Machine

variable {w : Nat}

/-- The read-modify-write of R86 in numbers. -/
theorem shiftIn_toNat (old : Byte) (nb : Bool) : (shiftIn old nb).toNat = (2 * old.toNat + nb.toNat) % 256 := by
  have hconcat : shiftIn old nb = old.shiftConcat nb := by
    apply BitVec.eq_of_getLsbD_eq
    intro p hp
    rw [shiftIn_getLsbD, BitVec.getLsbD_shiftConcat, decide_eq_true hp]
    simp
  rw [hconcat, BitVec.toNat_shiftConcat, Nat.shiftLeft_eq, pow_one, Nat.mul_comm]

/-- The normalised bit in numbers (R53). -/
theorem normBit_toNat_eq_ite (bit : Nat) : (normBit bit).toNat = if bit = 0 then 0 else 1 := by
  by_cases h : bit = 0 <;> simp [normBit, h]

/-- `bc0` in numbers (R84). -/
theorem Block.countAt_toNat (r : Block w) (ts : Timestamp w) :
    (r.countAt ts).toNat = if r.gapAt ts = true then 0 else r.bitCount.toNat := by
  cases hg : r.gapAt ts with
  | true => rw [Block.countAt_of_gap hg, if_pos rfl]; rfl
  | false => rw [Block.countAt_of_not_gap hg, if_neg Bool.false_ne_true]

/-- `elapsed` in numbers (R82). -/
theorem elapsed_toNat (last ts : Timestamp w) :
    (elapsed last ts).toNat = (ts.toNat + 2 ^ w - last.toNat) % 2 ^ w := by
  have hlast : last.toNat < 2 ^ w := last.isLt
  have hsum : 2 ^ w - last.toNat + ts.toNat = ts.toNat + 2 ^ w - last.toNat := by omega
  rw [elapsed, BitVec.toNat_sub, hsum]

/-- `r'` is left from `r` when bit number `n` of the frame is stored (R86, R88). -/
structure Block.StoresBit (r r' : Block w) (n : Nat) (nb : Bool) : Prop where
  bitCount : r'.bitCount.toNat = n + 1
  byte : r'.bufAt (n / 8) = shiftIn (r.bufAt (n / 8)) nb
  others : ∀ a, a ≠ n / 8 → r'.bufAt a = r.bufAt a
  done : r'.doneQ = true ↔ n + 1 = 40

/-- PROCESS records its timestamp in every case (R85). -/
theorem Block.process_stamps {r r' : Block w} {timestamp bit : Nat} (h : r.process timestamp bit = .next r') :
    r'.lastTimestamp = normTimestamp w timestamp ∧ r'.tsValid = true := by
  obtain ⟨-, -, hlast, hvalid, -⟩ | ⟨-, -, hlast, hvalid, -⟩ := Block.process_cases h <;> exact ⟨hlast, hvalid⟩

/-- A PROCESS that works with a count below 40 stores its bit (R86). -/
theorem Block.process_storesBit {r r' : Block w} {timestamp bit n : Nat} (h : r.process timestamp bit = .next r')
    (hn : (r.countAt (normTimestamp w timestamp)).toNat = n) (hlt : n < 40) : r.StoresBit r' n (normBit bit) := by
  have hstore : storeEnable (r.countAt (normTimestamp w timestamp)) = true := (storeEnable_iff _).mpr (hn ▸ hlt)
  have hnext := Host.Outcome.next.inj ((Block.process_store hstore).symm.trans h)
  subst hn hnext
  exact {
    bitCount := toNat_succ hstore
    byte := Memory.byteAt_put_same ..
    others := fun _ => Memory.byteAt_put_other _ _
    done := decide_eq_true_iff }

/-- A PROCESS that works with any other count absorbs its bit (R87). -/
theorem Block.process_absorbsBit {r r' : Block w} {timestamp bit : Nat} (h : r.process timestamp bit = .next r')
    (hge : ¬ (r.countAt (normTimestamp w timestamp)).toNat < 40) :
    r'.bitCount.toNat = 40 ∧ r'.buf = r.buf ∧ r'.doneQ = false := by
  have habsorb : storeEnable (r.countAt (normTimestamp w timestamp)) = false := decide_eq_false hge
  have hnext := Host.Outcome.next.inj ((Block.process_absorb habsorb).symm.trans h)
  subst hnext
  exact ⟨rfl, rfl, rfl⟩

/-- A PROCESS that detects a gap stores bit number 0 (R84). -/
theorem Block.process_storesBit_of_gap {r r' : Block w} {timestamp bit : Nat}
    (h : r.process timestamp bit = .next r') (hg : r.gapAt (normTimestamp w timestamp) = true) :
    r.StoresBit r' 0 (normBit bit) :=
  Block.process_storesBit h (congrArg BitVec.toNat (Block.countAt_of_gap hg)) (by decide)

/-- After bit number 0 the count is 1. -/
theorem Block.StoresBit.bitCount_eq_one {r r' : Block w} {nb : Bool} (h : r.StoresBit r' 0 nb) : r'.bitCount = 1 :=
  BitVec.eq_of_toNat_eq h.bitCount

/-- A bit before the 40th returns 0 and leaves the FSM in ACCUMULATING (R88, R101). -/
theorem Block.StoresBit.accumulating {r r' : Block w} {n : Nat} {nb : Bool} (h : r.StoresBit r' n nb) (hn : n ≤ 38) :
    r'.doneQ = false ∧ r'.fsmState = .accumulating := by
  constructor
  · rw [Bool.eq_false_iff, ne_eq, h.done]
    omega
  · rw [Block.fsmState, h.bitCount, if_neg n.succ_ne_zero, if_pos (show n + 1 < 40 by omega)]

/-- The count 40 is the FSM state COMPLETE (R101). -/
theorem Block.fsmState_of_bitCount {r : Block w} (h : r.bitCount.toNat = 40) : r.fsmState = .complete := by
  rw [Block.fsmState, h]
  rfl

/-- Settles O12: `bc0` is 39 only where `bit_count` is and no gap resets it; a gap stores bit number 0. -/
theorem returnsOneExactlyAtFortiethBit : Obligations.ReturnsOneExactlyAtFortiethBit := by
  intro w r r' timestamp bit h
  refine ⟨?_, fun hg => ?_⟩
  · rw [Block.process_doneQ_iff h, Block.countAt_toNat]
    cases r.gapAt (normTimestamp w timestamp) with
    | true => simp
    | false => simp
  · have hstores := Block.process_storesBit_of_gap h hg
    exact ⟨(hstores.accumulating (by decide)).1, hstores.bitCount_eq_one⟩

/-- Settles O10: a gap, and each count without one, fixes the count that PROCESS works with. -/
theorem processHasFourCases : Obligations.ProcessHasFourCases := by
  intro w r timestamp bit
  obtain ⟨r', h⟩ := r.exec_completes (.process timestamp bit)
  obtain ⟨hlast, hvalid⟩ := Block.process_stamps h
  have hcount (hg : r.gapAt (normTimestamp w timestamp) = false) :
      (r.countAt (normTimestamp w timestamp)).toNat = r.bitCount.toNat :=
    congrArg BitVec.toNat (Block.countAt_of_not_gap hg)
  refine ⟨r', h, hlast, hvalid, fun hg => ?gap, fun hg hn => ?accumulate, fun hg hn => ?complete, fun hg hn => ?absorb⟩
  case gap =>
    have hstores := Block.process_storesBit_of_gap h hg
    exact ⟨hstores.bitCount_eq_one, hstores.byte, hstores.others, hstores.accumulating (by decide)⟩
  case accumulate =>
    have hstores := Block.process_storesBit h (hcount hg) (by omega)
    exact ⟨hstores.bitCount, hstores.byte, hstores.others, hstores.accumulating hn⟩
  case complete =>
    have hstores := Block.process_storesBit h ((hcount hg).trans hn) (by decide)
    exact ⟨hstores.bitCount, hstores.byte, hstores.others, hstores.done.mpr rfl,
      Block.fsmState_of_bitCount hstores.bitCount⟩
  case absorb =>
    obtain ⟨hforty, hbuf, hdone⟩ := Block.process_absorbsBit h (by rw [hcount hg, hn]; decide)
    exact ⟨hforty, hbuf, hdone, Block.fsmState_of_bitCount hforty⟩

/-- Settles O9: the pseudocode's `ts`, `nb`, `elapsed` and `bc0` are the model's, and `bc0` decides between the store
and the absorb. -/
theorem processFollowsPseudocode : Obligations.ProcessFollowsPseudocode := by
  intro s timestamp bit ts nb elapsed bc0 hts hnb helapsed hbc0
  have hts' : (normTimestamp 32 timestamp).toNat = ts := (normTimestamp_toNat_eq_mod 32 timestamp).trans hts.symm
  have hnb' : (normBit bit).toNat = nb := (normBit_toNat_eq_ite bit).trans hnb.symm
  have helapsed' : (normTimestamp 32 timestamp - s.block.lastTimestamp).toNat = elapsed := by
    rw [helapsed, ← hts']
    exact elapsed_toNat ..
  have hgap : s.block.gapAt (normTimestamp 32 timestamp) = true ↔ s.block.tsValid = false ∨ 3 < elapsed :=
    helapsed' ▸ Block.gapAt_iff
  have hbc0' : (s.block.countAt (normTimestamp 32 timestamp)).toNat = bc0 :=
    (Block.countAt_toNat ..).trans ((if_congr hgap rfl rfl).trans hbc0.symm)
  obtain ⟨r', h⟩ := s.block.exec_completes (.process timestamp bit)
  obtain ⟨hlast, hvalid⟩ := Block.process_stamps h
  refine ⟨_, exec_of_block_next h, (congrArg BitVec.toNat hlast).trans hts', hvalid, rfl, fun hlt => ?store,
    fun hge => ?absorb⟩
  case store =>
    obtain ⟨hcount, hbyte, hothers, hdone⟩ := Block.process_storesBit h hbc0' hlt
    exact ⟨by rw [hbyte, shiftIn_toNat, hnb'], hothers, hcount, hdone⟩
  case absorb =>
    obtain ⟨hcount, hbuf, hdone⟩ := Block.process_absorbsBit h (hbc0'.symm ▸ hge)
    exact ⟨fun a => congrArg (Memory.byteAt · a) hbuf, hcount, hdone⟩

end Sys2Proof.Machine
end

section
/-! PROOFS. Elapsed time is modulo `2^TSW` (R82, R90, R155): a counter that moves on by `d` shows `d mod 2^TSW`, and a
step back by `d` is a step forward by `2^TSW - d` (R91). -/

namespace Sys2Proof.Machine

variable {w : Nat}

/-- What a wrapping counter shows of `d` ticks (R155). -/
theorem elapsed_add (w T d : Nat) : elapsed (normTimestamp w T) (normTimestamp w (T + d)) = normTimestamp w d := by
  simp [elapsed, normTimestamp, BitVec.ofNat_add]

/-- Settles O15: the elapsed value is `d` modulo `2^w`. -/
theorem intervalsAreModular : Obligations.IntervalsAreModular := by
  intro w r T d hv hlast
  rw [Block.gapAt_iff_of_tsValid hv, hlast, ← elapsed, elapsed_add, normTimestamp_toNat_eq_mod]

/-- A timestamp of the field's width is its own normal form. -/
theorem normTimestamp_of_toNat (ts : Timestamp w) : normTimestamp w ts.toNat = ts := by
  simp [normTimestamp]

/-- A step back by `d` is a step forward by `2^w - d` (R91). -/
theorem normTimestamp_sub {last : Timestamp w} {d : Nat} (hd : d ≤ last.toNat) :
    normTimestamp w (last.toNat - d) = normTimestamp w (last.toNat + (2 ^ w - d)) := by
  have hlast : last.toNat < 2 ^ w := last.isLt
  have hsum : last.toNat + (2 ^ w - d) = last.toNat - d + 2 ^ w := by omega
  apply BitVec.eq_of_toNat_eq
  rw [normTimestamp_toNat_eq_mod, normTimestamp_toNat_eq_mod, hsum, Nat.add_mod_right]

/-- The elapsed value of a step back by `d` (R91). -/
theorem elapsed_sub_toNat {last : Timestamp w} {d : Nat} (hd : d ≤ last.toNat) :
    (elapsed last (normTimestamp w (last.toNat - d))).toNat = (2 ^ w - d) % 2 ^ w := by
  have hforward := elapsed_add w last.toNat (2 ^ w - d)
  rw [normTimestamp_of_toNat, ← normTimestamp_sub hd] at hforward
  rw [hforward, normTimestamp_toNat_eq_mod]

/-- Settles O17: the step back by `d` has the elapsed value `(2^w - d) mod 2^w`, compared with 3. -/
theorem backwardTimestamps : Obligations.BackwardTimestamps := by
  intro w r d bit hv hd
  have helapsed := elapsed_sub_toNat hd
  have hgap : r.gapAt (normTimestamp w (r.lastTimestamp.toNat - d)) = true ↔ 3 < (2 ^ w - d) % 2 ^ w := by
    rw [Block.gapAt_iff_of_tsValid hv, ← elapsed, helapsed]
  have hnogap (hle : ¬ 3 < (2 ^ w - d) % 2 ^ w) : r.gapAt (normTimestamp w (r.lastTimestamp.toNat - d)) = false :=
    Bool.eq_false_iff.mpr (mt hgap.mp hle)
  have hcompletes := r.exec_completes (.process (r.lastTimestamp.toNat - d) bit)
  refine ⟨fun hpos hle => ?backward, fun hge _ => ⟨hnogap ?_, ?_⟩, fun hzero => hnogap ?_, hcompletes⟩
  case backward =>
    have hmod : (2 ^ w - d) % 2 ^ w = 2 ^ w - d := Nat.mod_eq_of_lt (by omega)
    have hg := hgap.mpr (by omega)
    obtain ⟨r', h⟩ := hcompletes
    exact ⟨hg, helapsed.trans hmod, r', h, (Block.process_storesBit_of_gap h hg).bitCount_eq_one⟩
  · have hle : (2 ^ w - d) % 2 ^ w ≤ 2 ^ w - d := Nat.mod_le ..
    omega
  · exact Block.process_congr (normTimestamp_sub hd) rfl r
  · simp [hzero]

end Sys2Proof.Machine
end

section
/-! PROOFS. The count after a PROCESS (R104), and the bit number 0 that a PROCESS stores after a gap or where nothing
is received (R108, R109). -/

namespace Sys2Proof.Machine

variable {w : Nat}

/-- Settles O25: the block's step completes, and the whole state's step is the block's. -/
theorem everyStepCompletes : Obligations.EveryStepCompletes := by
  have hexec (i : Instr) (s : State) : Outcome.Completes (exec i s) := by
    obtain ⟨b, h⟩ := s.block.exec_completes i
    exact ⟨_, exec_of_block_next h⟩
  exact ⟨fun s => hexec (decodePorts s.sample) s.afterSample, hexec, fun _ => Block.exec_completes⟩

/-- The count 0 is the FSM state EMPTY (R101). -/
theorem Block.fsmState_eq_empty_iff {r : Block w} : r.fsmState = .empty ↔ r.bitCount.toNat = 0 := by
  rw [Block.fsmState]
  split_ifs with hzero hlt <;> simp [hzero]

/-- After a PROCESS the count is not 0, because a timestamp exists (R23 (b), R104). -/
theorem Block.bitCount_pos_of_process {r r' : Block w} {timestamp bit : Nat}
    (h : r.process timestamp bit = .next r') : 1 ≤ r'.bitCount.toNat := by
  by_contra hzero
  have hinvalid := (Block.meetsR23_of_process h).valid_iff.mpr (by omega)
  exact Bool.false_ne_true (hinvalid.symm.trans (Block.process_stamps h).2)

/-- Settles O29: PROCESS leaves a count of 1 to 40 from any block, and IDLE leaves the count as it was. -/
theorem processNeverLeavesEmpty : Obligations.ProcessNeverLeavesEmpty := by
  intro w r r' i h
  cases i with
  | process timestamp bit =>
    have hpos := Block.bitCount_pos_of_process h
    have hnonempty : r'.fsmState ≠ .empty := mt Block.fsmState_eq_empty_iff.mp (by omega)
    exact ⟨fun _ => ⟨hpos, (Block.meetsR23_of_process h).count_le, (Block.process_stamps h).2, hnonempty⟩,
      fun hempty => absurd hempty hnonempty⟩
  | init => exact ⟨nofun, fun _ _ => .inl rfl⟩
  | idle =>
    cases h
    exact ⟨nofun, fun hempty hnonempty => absurd hempty hnonempty⟩
  | reset => exact ⟨nofun, fun _ _ => .inr rfl⟩

/-- The bit stored is the lowest of its byte (R86). -/
theorem Block.StoresBit.newest {r r' : Block w} {n : Nat} {nb : Bool} (h : r.StoresBit r' n nb) :
    (r'.bufAt (n / 8)).getLsbD 0 = nb := by
  rw [h.byte, shiftIn_getLsbD, if_pos rfl]

/-- The earlier bits of that byte move up by one place (R86). -/
theorem Block.StoresBit.moved_up {r r' : Block w} {n p : Nat} {nb : Bool} (h : r.StoresBit r' n nb) (hp : p < 7) :
    (r'.bufAt (n / 8)).getLsbD (p + 1) = (r.bufAt (n / 8)).getLsbD p := by
  rw [h.byte, shiftIn_getLsbD, if_neg p.succ_ne_zero, decide_eq_true (by omega), Bool.true_and, Nat.add_sub_cancel]

/-- Settles O13: a gap makes the step the store of bit number 0, which shows neither `frame_done` nor `frame_valid`. -/
theorem gapDiscardsPartialFrame : Obligations.GapDiscardsPartialFrame := by
  intro s timestamp bit hg
  obtain ⟨r', h⟩ := s.block.exec_completes (.process timestamp bit)
  have hstores := Block.process_storesBit_of_gap h hg
  have hnotValid : r'.frameValid = false := by simp [Block.frameValid, hstores.bitCount]
  exact ⟨_, exec_of_block_next h, hstores.bitCount_eq_one, (hstores.accumulating (by decide)).1, hnotValid,
    hstores.newest, fun _ => hstores.moved_up, hstores.others⟩

/-- A state that INIT or RESET left is the one with the block cleared (R142). -/
theorem eq_clear_of_exec_restart {s s₀ : State} (h : exec .init s = .next s₀ ∨ exec .reset s = .next s₀) :
    s₀ = { s with block := s.block.clear } := by
  rcases h with h | h
  · exact Host.Outcome.next.inj (h.symm.trans (exec_restart (.inl rfl) s))
  · exact Host.Outcome.next.inj (h.symm.trans (exec_restart (.inr rfl) s))

/-- Settles O14: with nothing received PROCESS stores bit number 0, and what it leaves depends on the buffer alone. -/
theorem firstBitIsNeverDropped : Obligations.FirstBitIsNeverDropped := by
  refine ⟨fun s s₀ timestamp bit h => ?_, fun w r₁ r₂ timestamp bit hcount₁ hcount₂ hbuf => ?_⟩
  · obtain rfl := eq_clear_of_exec_restart h
    obtain ⟨r', hexec⟩ := s.block.clear.exec_completes (.process timestamp bit)
    have hstores : s.block.clear.StoresBit r' 0 (normBit bit) :=
      Block.process_storesBit hexec (congrArg BitVec.toNat (Block.countAt_of_bitCount_zero rfl _)) (by decide)
    exact ⟨_, exec_of_block_next hexec, hstores.bitCount_eq_one, hstores.newest, hstores.others⟩
  · rw [Block.exec_process, Block.exec_process, Block.process_of_bitCount_zero hcount₁,
      Block.process_of_bitCount_zero hcount₂, hbuf]

end Sys2Proof.Machine
end

section
/-! PROOFS. No step reads the buffer to compute anything but the buffer (R113). -/

namespace Sys2Proof.Machine

variable {w : Nat}

/-- Two blocks that differ at most in the buffer. -/
structure Block.SameControl (r₁ r₂ : Block w) : Prop where
  bitCount_eq : r₁.bitCount = r₂.bitCount
  lastTimestamp_eq : r₁.lastTimestamp = r₂.lastTimestamp
  tsValid_eq : r₁.tsValid = r₂.tsValid
  doneQ_eq : r₁.doneQ = r₂.doneQ

/-- The count that PROCESS works with is not read from the buffer (R83, R84). -/
theorem Block.SameControl.countAt_eq {r₁ r₂ : Block w} (h : r₁.SameControl r₂) (ts : Timestamp w) :
    r₁.countAt ts = r₂.countAt ts := by
  simp only [Block.countAt, Block.gapAt, h.bitCount_eq, h.lastTimestamp_eq, h.tsValid_eq]

/-- Every step keeps the two blocks equal but for the buffer. -/
theorem Block.SameControl.exec {r₁ r₂ r₁' r₂' : Block w} (h : r₁.SameControl r₂) {i : Instr}
    (h₁ : r₁.exec i = .next r₁') (h₂ : r₂.exec i = .next r₂') : r₁'.SameControl r₂' := by
  cases i with
  | process timestamp bit =>
    have hcount := h.countAt_eq (normTimestamp w timestamp)
    cases hs : storeEnable (r₁.countAt (normTimestamp w timestamp)) with
    | true =>
      cases (Block.process_store hs).symm.trans h₁
      cases (Block.process_store (hcount ▸ hs)).symm.trans h₂
      exact ⟨congrArg (· + 1) hcount, rfl, rfl, congrArg completes hcount⟩
    | false =>
      cases (Block.process_absorb hs).symm.trans h₁
      cases (Block.process_absorb (hcount ▸ hs)).symm.trans h₂
      exact ⟨rfl, rfl, rfl, rfl⟩
  | idle =>
    cases h₁
    cases h₂
    exact ⟨h.bitCount_eq, h.lastTimestamp_eq, h.tsValid_eq, rfl⟩
  | init | reset =>
    cases h₁
    cases h₂
    exact ⟨rfl, rfl, rfl, rfl⟩

/-- A stream at two such blocks completes with the same return values and leaves two such blocks. -/
theorem Block.SameControl.run {r₁ r₂ : Block w} (h : r₁.SameControl r₂) (l : List Instr) :
    Block.returns l r₁ = Block.returns l r₂ ∧
    ∃ r₁' r₂' : Block w, Block.run l r₁ = .next r₁' ∧ Block.run l r₂ = .next r₂' ∧ r₁'.SameControl r₂' := by
  induction l generalizing r₁ r₂ with
  | nil => exact ⟨rfl, r₁, r₂, rfl, rfl, h⟩
  | cons i l ih =>
    obtain ⟨s₁, hexec₁⟩ := r₁.exec_completes i
    obtain ⟨s₂, hexec₂⟩ := r₂.exec_completes i
    have hsame := h.exec hexec₁ hexec₂
    rw [Block.returns_cons_of_exec hexec₁, Block.returns_cons_of_exec hexec₂, Block.run_cons_of_exec hexec₁,
      Block.run_cons_of_exec hexec₂, hsame.doneQ_eq, (ih hsame).1]
    exact ⟨rfl, (ih hsame).2⟩

/-- Settles O33: the two blocks differ at most in the buffer throughout the stream. -/
theorem controlIgnoresBuffer : Obligations.ControlIgnoresBuffer := by
  intro w r₁ r₂ l hcount hlast hvalid hdone
  have hsame : r₁.SameControl r₂ := ⟨hcount, hlast, hvalid, hdone⟩
  obtain ⟨hreturns, r₁', r₂', hrun₁, hrun₂, hcount', hlast', hvalid', hdone'⟩ := hsame.run l
  exact ⟨hreturns, r₁', r₂', hrun₁, hrun₂, hcount', hlast', hvalid', hdone'⟩

end Sys2Proof.Machine
end

section
/-! PROOFS. The 40 bits of a complete frame as numbers (R55, R106). -/

namespace Sys2Proof.Machine

variable {w : Nat}

/-- The first bit has the weight of all the bits after it. -/
theorem msbFirst_cons (b : Bool) (bits : List Bool) :
    msbFirst (b :: bits) = b.toNat * 2 ^ bits.length + msbFirst bits := by
  simp [msbFirst, List.range_succ_eq_map, Function.comp_def, Nat.sub_sub, Nat.add_comm]

/-- `msbFirst` is the number of the bit vector with those bits, first one most significant. -/
theorem msbFirst_eq_toNat_ofBoolListBE (bits : List Bool) : msbFirst bits = (BitVec.ofBoolListBE bits).toNat := by
  induction bits with
  | nil => rfl
  | cons b bits ih => rw [msbFirst_cons, ih, BitVec.ofBoolListBE, BitVec.toNat_cons', Nat.shiftLeft_eq]

/-- A word whose bits from the top are the bits given is the number they make (R106). -/
theorem toNat_eq_msbFirst {n : Nat} {x : BitVec n} {bits : List Bool} (hlength : bits.length = n)
    (h : ∀ k, k < n → bits[k]? = some (x.getLsbD (n - 1 - k))) : x.toNat = msbFirst bits := by
  subst hlength
  rw [msbFirst_eq_toNat_ofBoolListBE]
  refine congrArg BitVec.toNat (BitVec.eq_of_getLsbD_eq fun p hp => ?_)
  have hplace : bits.length - 1 - (bits.length - 1 - p) = p := by omega
  rw [BitVec.getLsbD_ofBoolListBE, decide_eq_true hp, Bool.true_and, List.getD_eq_getElem?_getD,
    h _ (by omega), hplace, Option.getD_some]

/-- The buffer is the 40 bits given, packed most significant bit first (R106). -/
structure Block.FrameIs (r : Block w) (bits : List Bool) : Prop where
  frame : r.frame.toNat = msbFirst bits
  byte : ∀ i, i < 5 → (r.bufAt i).toNat = msbFirst ((bits.drop (8 * i)).take 8)

/-- In a complete frame bit number `k` stands at place `7 - k mod 8` of byte `k div 8` (R33, R34). -/
theorem Block.Packed.getElem?_of_complete {r : Block w} {bits : List Bool} (h : r.Packed bits)
    (hlength : bits.length = 40) {k : Nat} (hk : k < 40) :
    bits[k]? = some ((r.bufAt (k / 8)).getLsbD (7 - k % 8)) := by
  have hplace : bitsInByte 40 (k / 8) - 1 - k % 8 = 7 - k % 8 := by
    simp only [bitsInByte, Config.BYTE_BITS]
    omega
  have hget := List.getElem?_eq_getElem (hlength.symm ▸ hk : k < bits.length)
  have hbit : (r.bufAt (k / 8)).getLsbD (bitsInByte bits.length (k / 8) - 1 - k % 8) = bits[k] :=
    (Block.packed_iff.mp h).2 k _ hget
  rw [hget, ← hbit, hlength, hplace]

/-- Forty packed bits are the frame. -/
theorem Block.Packed.frameIs {r : Block w} {bits : List Bool} (h : r.Packed bits) (hlength : bits.length = 40) :
    r.FrameIs bits where
  frame := toNat_eq_msbFirst hlength fun k hk => by
    rw [h.getElem?_of_complete hlength hk, r.frame_getLsbD hk]
  byte i hi := toNat_eq_msbFirst (by simp; omega) fun j hj => by
    have hbyte : (8 * i + j) / 8 = i := by omega
    have hplace : 7 - (8 * i + j) % 8 = 8 - 1 - j := by omega
    rw [List.getElem?_take, if_pos hj, List.getElem?_drop, h.getElem?_of_complete hlength (by omega), hbyte, hplace]

/-- What is kept along a stream of the block and the log of its current frame: R33, R23 (a) and R23 (c). -/
structure Block.Logged (r : Block w) (g : FrameLog) : Prop where
  count_le : r.bitCount.toNat ≤ 40
  packed : r.Packed g.bits
  done_valid : r.doneQ = true → r.frameValid = true

/-- Every step keeps a count up to 40 (R23 (a)). -/
theorem Block.exec_preserves_count_le {i : Instr} {r r' : Block w} (hle : r.bitCount.toNat ≤ 40)
    (h : r.exec i = .next r') : r'.bitCount.toNat ≤ 40 := by
  cases i with
  | process timestamp bit => exact (Block.meetsR23_of_process h).count_le
  | idle => cases h; exact hle
  | init | reset => cases h; exact Nat.zero_le _

/-- Settles O38: every step keeps the packing of the logged bits, and 40 packed bits are the frame. -/
theorem completedFrameIsTheReceivedBits : Obligations.CompletedFrameIsTheReceivedBits := by
  intro w r r' l g hcount hdone h
  have hstart : r.Logged FrameLog.start :=
    ⟨by simp [hcount], ⟨by simp [FrameLog.start, hcount], nofun⟩, by simp [hdone]⟩
  have hstep (i : Instr) (r r' : Block w) (g : FrameLog) (hlogged : r.Logged g) (h : r.exec i = .next r') :
      r'.Logged (FrameLog.after r i g) :=
    ⟨Block.exec_preserves_count_le hlogged.count_le h,
      everyStepKeepsPacking w r r' i g hlogged.count_le hlogged.packed h, Block.exec_frameValid_of_doneQ h⟩
  obtain ⟨-, hpacked, hdoneValid⟩ := Block.runLogged_preserves hstep hstart h
  refine ⟨hdoneValid, fun hvalid => ?_⟩
  have hlength : g.bits.length = 40 := hpacked.1.trans (r'.frameValid_iff.mp hvalid)
  obtain ⟨hframe, hbyte⟩ := hpacked.frameIs hlength
  exact ⟨hlength, hframe, hbyte⟩

end Sys2Proof.Machine
end

section
/-! PROOFS. Streams without a gap (R105 to R107): every PROCESS goes on from `bit_count`, so the first 40 bits fill the
frame and the later ones are absorbed. -/

namespace Sys2Proof.Machine

variable {w : Nat}

/-- A PROCESS with no gap after `prev` goes on from the count of `r`, be there a timestamp or nothing received yet. -/
def Block.GoesOnFrom (r : Block w) (prev : Option (Timestamp w)) : Prop :=
  ∀ ts, noGapAfter prev ts = true → r.countAt ts = r.bitCount

/-- Where nothing is received every PROCESS goes on from 0 (R108). -/
theorem Block.goesOnFrom_clear (r : Block w) : r.clear.GoesOnFrom none :=
  fun ts _ => Block.countAt_of_bitCount_zero rfl ts

/-- After a PROCESS the next one without a gap goes on from the count it left (R85). -/
theorem Block.goesOnFrom_of_process {r r' : Block w} {timestamp bit : Nat} (h : r.process timestamp bit = .next r') :
    r'.GoesOnFrom (some (normTimestamp w timestamp)) := by
  obtain ⟨hlast, hvalid⟩ := Block.process_stamps h
  have hprev : r'.previous = some (normTimestamp w timestamp) := by rw [Block.previous, if_pos hvalid, hlast]
  exact fun _ => Block.countAt_of_noGapAfter hprev

/-- The first 40 of the bits received so far are packed in the buffer, and the next bit goes on from them: a bit before
the 40th is shifted in, a later one changes nothing. -/
theorem Block.Packed.process_take {r r' : Block w} {got : List Bool} {timestamp bit : Nat}
    (hpacked : r.Packed (got.take 40)) (hcountAt : r.countAt (normTimestamp w timestamp) = r.bitCount)
    (h : r.process timestamp bit = .next r') : r'.Packed ((got ++ [normBit bit]).take 40) := by
  obtain ⟨hcount, hholds⟩ := Block.packed_iff.mp hpacked
  by_cases hlt : got.length < 40
  · have htake : got.take 40 = got := List.take_of_length_le hlt.le
    rw [htake] at hcount hholds
    have hbyte : got.length / 8 < 5 := by omega
    obtain ⟨r₁, hexec, -, hcount₁, hbuf₁⟩ :=
      Block.process_fills hbyte (r := r) (timestamp := timestamp) (by rw [hcountAt, hcount]) bit
    cases hexec.symm.trans h
    rw [List.take_of_length_le (by simpa using hlt), Block.packed_iff, hcount₁, hcountAt, ← hcount, hbuf₁]
    exact ⟨List.length_append, hholds.shiftAt (normBit bit)⟩
  · have hge : 40 ≤ got.length := Nat.not_lt.mp hlt
    have hforty : r.bitCount.toNat = 40 := by simpa [hge] using hcount.symm
    obtain ⟨hcount', hbuf, -⟩ := Block.process_absorbsBit h (by rw [hcountAt, hforty]; decide)
    rw [List.take_append_of_le_length hge, Block.packed_iff, hcount', hbuf]
    exact ⟨hcount.trans hforty, hholds⟩

/-- Such a PROCESS returns 1 exactly for the 40th bit (R88). -/
theorem Block.Packed.process_doneQ {r r' : Block w} {got : List Bool} {timestamp bit : Nat}
    (hpacked : r.Packed (got.take 40)) (hcountAt : r.countAt (normTimestamp w timestamp) = r.bitCount)
    (h : r.process timestamp bit = .next r') : r'.doneQ = decide (got.length = 39) := by
  have hcount : min 40 got.length = r.bitCount.toNat := by simpa using hpacked.1
  rw [Bool.eq_iff_iff, Block.process_doneQ_iff h, hcountAt, ← hcount, decide_eq_true_iff]
  omega

/-- The return values of `n` bits that come without a gap after `m` earlier ones: 1 for the 40th bit of all (R105). -/
def gapFreeReturns (m n : Nat) : List Bool := (List.range n).map fun k => decide (m + k = 39)

/-- The first value, and then those of the bits that follow it. -/
theorem gapFreeReturns_succ (m n : Nat) :
    gapFreeReturns m (n + 1) = decide (m = 39) :: gapFreeReturns (m + 1) n := by
  simp [gapFreeReturns, List.range_succ_eq_map, Function.comp_def, Nat.add_comm, Nat.add_left_comm]

/-- A PROCESS at the head of a stream returns its `done_q` (R50, R88). -/
theorem Block.returns_process_cons {r r₁ : Block w} {timestamp bit : Nat}
    (h : r.exec (.process timestamp bit) = .next r₁) (l : List Instr) :
    Block.returns (.process timestamp bit :: l) r = r₁.doneQ :: Block.returns l r₁ :=
  Block.returns_cons_of_exec h l

/-- A stream without a gap packs the first 40 bits received in all, and only the 40th returns 1. -/
theorem Block.Packed.run_unbroken {l : List Instr} {r : Block w} {got : List Bool} {prev : Option (Timestamp w)}
    (hpacked : r.Packed (got.take 40)) (hprev : r.GoesOnFrom prev) (hl : unbroken prev l = true) :
    ∃ r' : Block w, Block.run l r = .next r' ∧ r'.Packed ((got ++ streamBits l).take 40) ∧
      Block.returns l r = gapFreeReturns got.length (streamBits l).length := by
  induction l generalizing r got prev with
  | nil => exact ⟨r, rfl, by rwa [streamBits, List.append_nil], rfl⟩
  | cons i l ih =>
    cases i with
    | process timestamp bit =>
      obtain ⟨hnogap, hrest⟩ := Bool.and_eq_true_iff.mp hl
      have hcountAt := hprev _ hnogap
      obtain ⟨r₁, hexec⟩ := r.exec_completes (.process timestamp bit)
      obtain ⟨r', hrun, hall, hreturns⟩ :=
        ih (hpacked.process_take hcountAt hexec) (Block.goesOnFrom_of_process hexec) hrest
      refine ⟨r', (Block.run_cons_of_exec hexec l).trans hrun, ?_, ?_⟩
      · rwa [List.append_assoc] at hall
      · rw [Block.returns_process_cons hexec, hpacked.process_doneQ hcountAt hexec, hreturns,
          List.length_append, List.length_singleton, streamBits, List.length_cons, gapFreeReturns_succ]
    | idle => exact ih (r := { r with doneQ := false }) hpacked hprev hl
    | init | reset => cases hl

/-- After INIT or RESET a stream without a gap packs its first 40 bits, and only the 40th returns 1 (R105, R106). -/
theorem Block.run_restart_unbroken {c : Instr} (hc : c = .init ∨ c = .reset) {l : List Instr}
    (hl : unbroken (w := w) none l = true) (r : Block w) :
    ∃ r' : Block w, Block.run (c :: l) r = .next r' ∧ r'.Packed ((streamBits l).take 40) ∧
      Block.returns (c :: l) r = gapFreeReturns 0 (streamBits l).length := by
  have hcontrol : c.isProcess = false := by rcases hc with rfl | rfl <;> rfl
  have hexec := Block.exec_restart hc r
  rw [Block.run_cons_of_exec hexec, Block.returns_cons_of_exec hexec, hcontrol, if_neg Bool.false_ne_true]
  exact Block.Packed.run_unbroken (got := []) r.received_clear.packed r.goesOnFrom_clear hl

/-- Settles O35: the count is the number of bits packed. -/
theorem countingLaw : Obligations.CountingLaw := by
  intro w r c l hc hl
  obtain ⟨r', hrun, hpacked, hreturns⟩ := Block.run_restart_unbroken hc hl r
  refine ⟨⟨r', hrun, ?_⟩, ?_⟩
  · rw [← hpacked.1, List.length_take, Nat.min_comm]
  · simpa only [gapFreeReturns, Nat.zero_add] using hreturns

/-- Settles O36: the 40 bits packed are the frame. -/
theorem fortyBitsFillTheFrame : Obligations.FortyBitsFillTheFrame := by
  intro w r c l hc hl hforty
  obtain ⟨r', hrun, hpacked, -⟩ := Block.run_restart_unbroken hc hl r
  obtain ⟨hframe, hbyte⟩ := hpacked.frameIs (List.length_take_of_le hforty)
  refine ⟨r', hrun, hframe, fun i hi => ?_⟩
  have hinside : min 8 (40 - 8 * i) = 8 := by omega
  rw [hbyte i hi, List.drop_take, List.take_take, hinside]

/-- In COMPLETE a stream without a gap moves the timestamp only, and returns 0 throughout (R107). -/
theorem Block.run_unbroken_of_complete {l : List Instr} {r : Block w} (hcount : r.bitCount.toNat = 40)
    (hvalid : r.tsValid = true) (hl : unbroken (some r.lastTimestamp) l = true) :
    (∃ r' : Block w, Block.run l r = .next r' ∧ r'.buf = r.buf ∧ r'.bitCount = r.bitCount ∧ r'.tsValid = true ∧
      r'.lastTimestamp = lastStamp r.lastTimestamp l) ∧
    ∀ ret, ret ∈ Block.returns l r → ret = false := by
  induction l generalizing r with
  | nil => exact ⟨⟨r, rfl, rfl, rfl, hvalid, rfl⟩, nofun⟩
  | cons i l ih =>
    cases i with
    | process timestamp bit =>
      obtain ⟨hnogap, hrest⟩ := Bool.and_eq_true_iff.mp hl
      have hcountAt : r.countAt (normTimestamp w timestamp) = r.bitCount :=
        Block.countAt_of_noGapAfter (if_pos hvalid) hnogap
      obtain ⟨r₁, hexec⟩ := r.exec_completes (.process timestamp bit)
      obtain ⟨hcount₁, hbuf₁, hdone₁⟩ := Block.process_absorbsBit hexec (by rw [hcountAt, hcount]; decide)
      obtain ⟨hlast₁, hvalid₁⟩ := Block.process_stamps hexec
      obtain ⟨⟨r', hrun, hbuf, hcount', hvalid', hlast⟩, hreturns⟩ := ih hcount₁ hvalid₁ (hlast₁ ▸ hrest)
      refine ⟨⟨r', (Block.run_cons_of_exec hexec l).trans hrun, hbuf.trans hbuf₁, ?_, hvalid', ?_⟩, ?_⟩
      · exact hcount'.trans (BitVec.eq_of_toNat_eq (hcount₁.trans hcount.symm))
      · rw [hlast, hlast₁, lastStamp]
      · rw [Block.returns_process_cons hexec, hdone₁]
        exact List.forall_mem_cons.mpr ⟨rfl, hreturns⟩
    | idle => exact ih (r := { r with doneQ := false }) hcount hvalid hl
    | init | reset => cases hl

/-- Settles O40: the stream's steps absorb one after another. -/
theorem overflowAndRunOnAreAbsorbed : Obligations.OverflowAndRunOnAreAbsorbed :=
  fun _ _ _ => Block.run_unbroken_of_complete

end Sys2Proof.Machine
end

section
/-! PROOFS. Completions are apart (R111): each returned 0 brings an incomplete frame one bit further at most, and none
is in progress in COMPLETE. -/

namespace Sys2Proof.Machine

variable {w : Nat}

/-- The bits received of a frame that is not yet complete. -/
def Block.pendingBits (r : Block w) : Nat := if r.bitCount.toNat < 40 then r.bitCount.toNat else 0

/-- An incomplete frame's bits are the count (R11). -/
theorem Block.pendingBits_of_lt {r : Block w} (h : r.bitCount.toNat < 40) : r.pendingBits = r.bitCount.toNat := if_pos h

/-- In COMPLETE no frame is in progress (R101). -/
theorem Block.pendingBits_of_complete {r : Block w} (h : r.bitCount.toNat = 40) : r.pendingBits = 0 :=
  if_neg (by omega)

/-- A count below 40 that PROCESS works with is 0 or that of the frame in progress (R84). -/
theorem Block.countAt_le_pendingBits {r : Block w} {ts : Timestamp w} (h : (r.countAt ts).toNat < 40) :
    (r.countAt ts).toNat ≤ r.pendingBits := by
  cases hg : r.gapAt ts with
  | true => rw [Block.countAt_of_gap hg]; exact Nat.zero_le _
  | false =>
    rw [Block.countAt_of_not_gap hg] at h ⊢
    exact (Block.pendingBits_of_lt h).ge

/-- A PROCESS that leaves a frame in progress brings it one bit further at most, and returns 0 (R88). -/
theorem Block.process_pendingBits_le {r r' : Block w} {timestamp bit : Nat} (h : r.process timestamp bit = .next r') :
    r'.pendingBits = 0 ∨ r'.doneQ = false ∧ r'.pendingBits ≤ r.pendingBits + 1 := by
  by_cases hlt : (r.countAt (normTimestamp w timestamp)).toNat < 39
  · have hstores := Block.process_storesBit h rfl (by omega)
    have hcount := hstores.bitCount
    have hpending := Block.pendingBits_of_lt (r := r') (by omega)
    have hle := Block.countAt_le_pendingBits (r := r) (ts := normTimestamp w timestamp) (by omega)
    exact .inr ⟨(hstores.accumulating (by omega)).1, by omega⟩
  · refine .inl (Block.pendingBits_of_complete ?_)
    by_cases hlast : (r.countAt (normTimestamp w timestamp)).toNat = 39
    · exact (Block.process_storesBit h hlast (by decide)).bitCount
    · exact (Block.process_absorbsBit h (by omega)).1

/-- A stream brings the frame in progress no further than one bit for each returned 0. -/
theorem Block.run_pendingBits_le {l : List Instr} {r r' : Block w} (h : Block.run l r = .next r') :
    r'.pendingBits ≤ r.pendingBits + (Block.returns l r).count false := by
  induction l generalizing r with
  | nil => cases h; exact Nat.le_add_right ..
  | cons i l ih =>
    obtain ⟨r₁, hexec, hrun⟩ := Block.run_cons_next h
    have hrest := ih hrun
    cases i with
    | process timestamp bit =>
      rw [Block.returns_process_cons hexec]
      obtain hzero | ⟨hdone, hle⟩ := Block.process_pendingBits_le hexec
      · rw [List.count_cons]
        omega
      · rw [hdone, List.count_cons_self]
        omega
    | idle => cases hexec; exact hrest
    | init | reset =>
      cases hexec
      exact hrest.trans (Nat.add_le_add_right (Nat.zero_le _) _)

/-- In COMPLETE no step returns 1 (R88, R111). -/
theorem Block.exec_doneQ_of_complete {i : Instr} {r r' : Block w} (hcount : r.bitCount.toNat = 40)
    (h : r.exec i = .next r') : r'.doneQ = false := by
  rw [Bool.eq_false_iff, ne_eq, Block.exec_doneQ_iff h]
  rintro ⟨timestamp, bit, -, hcountAt⟩
  rw [Block.countAt_toNat, hcount] at hcountAt
  split at hcountAt
  · omega
  · omega

/-- Settles O41: before a completion 39 bits are pending, and in COMPLETE none; without a gap the block is still in
COMPLETE. -/
theorem completionsAreSpaced : Obligations.CompletionsAreSpaced := by
  refine ⟨fun w r r₁ r₂ l timestamp bit hcount hvalid hrun hexec hdone => ⟨?_, ?_⟩,
    fun w r r₁ r₂ i j hi hj hdone => ?_⟩
  · have h39 := (Block.process_doneQ_iff hexec).mp hdone
    have hbefore := Block.countAt_le_pendingBits (h39.trans_lt (by decide))
    have hle := Block.run_pendingBits_le hrun
    rw [Block.pendingBits_of_complete hcount] at hle
    omega
  · rw [Bool.eq_false_iff]
    intro hl
    obtain ⟨⟨r', hrun', -, hcount', -⟩, -⟩ := Block.run_unbroken_of_complete hcount hvalid hl
    cases hrun.symm.trans hrun'
    have hnotDone := Block.exec_doneQ_of_complete ((congrArg BitVec.toNat hcount').trans hcount) hexec
    exact Bool.false_ne_true (hnotDone.symm.trans hdone)
  · exact Block.exec_doneQ_of_complete (r₁.frameValid_iff.mp (Block.exec_frameValid_of_doneQ hi hdone)) hj

end Sys2Proof.Machine
end

section
/-! PROOFS. How COMPLETE is left (R127): among the PROCESS steps, only by one that detects a gap. -/

namespace Sys2Proof.Machine

variable {w : Nat}

/-- In COMPLETE a PROCESS with a gap leaves the count 1, and one without absorbs and leaves it at 40 (R84, R87). -/
theorem Block.process_leaves_complete_iff {r r' : Block w} {timestamp bit : Nat} (hcount : r.bitCount.toNat = 40)
    (h : r.process timestamp bit = .next r') :
    r'.bitCount.toNat ≠ 40 ↔ r.gapAt (normTimestamp w timestamp) = true := by
  cases hg : r.gapAt (normTimestamp w timestamp) with
  | true => simp [(Block.process_storesBit_of_gap h hg).bitCount]
  | false =>
    have hforty : (r.countAt (normTimestamp w timestamp)).toNat = 40 := by rw [Block.countAt_of_not_gap hg, hcount]
    simp [(Block.process_absorbsBit h (by omega)).1]

/-- Settles O30: a PROCESS leaves COMPLETE by a gap alone, INIT and RESET leave the count 0, and IDLE keeps it. -/
theorem completeIsLeftByGapOrRestart : Obligations.CompleteIsLeftByGapOrRestart := by
  intro w r r' i hcount h
  cases i with
  | process timestamp bit => simpa using Block.process_leaves_complete_iff hcount h
  | idle =>
    cases h
    simp [hcount]
  | init | reset =>
    cases h
    simp

end Sys2Proof.Machine
end

section
/-! PROOFS. Several copies of the block (R131). -/

namespace Sys2Proof.Machine

/-- An edge of an existing copy replaces that copy's state by what its own step leaves (R131). -/
theorem Instances.stepAt_of_step {sys : Instances} {k : Nat} {s s' : State} (hs : sys[k]? = some s)
    (h : step s = .next s') : sys.stepAt k = .next (sys.set k s') := by
  simp [Instances.stepAt, hs, h]

/-- Settles O45: the copy's own step completes, and the list differs from the one before at its position alone. -/
theorem copiesAreIndependent : Obligations.CopiesAreIndependent := by
  intro sys k s hs
  obtain ⟨s', hstep⟩ := everyStepCompletes.1 s
  obtain ⟨hk, -⟩ := List.getElem?_eq_some_iff.mp hs
  exact ⟨s', sys.set k s', hstep, Instances.stepAt_of_step hs hstep, List.getElem?_set_self hk,
    fun _ hj => List.getElem?_set_ne hj.symm⟩

end Sys2Proof.Machine
end

section
/-! PROOFS. A command word held for two edges (R160): the second elapsed time is 0, which is no gap. -/

namespace Sys2Proof.Machine

variable {w : Nat}

/-- A timestamp equal to the previous one is no gap: the elapsed time is 0 (R83, R160). -/
theorem Block.gapAt_lastTimestamp {r : Block w} (hv : r.tsValid = true) : r.gapAt r.lastTimestamp = false := by
  rw [Bool.eq_false_iff, ne_eq, Block.gapAt_iff_of_tsValid hv, BitVec.sub_self]
  simp

/-- Right after a PROCESS, one with the same timestamp works with `bit_count` as it stands (R84, R160). -/
theorem Block.countAt_of_held {r r₁ : Block w} {timestamp bit : Nat} (h : r.process timestamp bit = .next r₁) :
    r₁.countAt (normTimestamp w timestamp) = r₁.bitCount := by
  obtain ⟨hlast, hvalid⟩ := Block.process_stamps h
  rw [← hlast, Block.countAt_of_not_gap (Block.gapAt_lastTimestamp hvalid)]

/-- Settles O18: the second edge detects no gap, so it stores its bit as the next one of the frame. -/
theorem heldWordStoresTwice : Obligations.HeldWordStoresTwice := by
  intro w r r₁ timestamp bit h hlt
  obtain ⟨r₂, hsecond⟩ := r₁.exec_completes (.process timestamp bit)
  have hcount : (r₁.countAt (normTimestamp w timestamp)).toNat = r₁.bitCount.toNat :=
    congrArg BitVec.toNat (Block.countAt_of_held h)
  have hstores := Block.process_storesBit hsecond hcount hlt
  exact ⟨r₂, hsecond, hstores.bitCount, hstores.newest⟩

end Sys2Proof.Machine
end

section
/-! PROOFS. RESET by the wire `rst` and INIT by a command word (R140, R142). -/

namespace Sys2Proof.Machine

/-- The command word of INIT decodes to it (R54, R57). -/
theorem decodePorts_initWord (w : Nat) : decodePorts (commandSample (initWord w)) = .init :=
  decodePorts_encode (i := .init) rfl

/-- Settles O21: `rst` has priority in the decoder, and either restart leaves the cleared block. -/
theorem resetHasTheEffectOfInit : Obligations.ResetHasTheEffectOfInit := by
  refine ⟨fun w p => decodePorts_of_rst, decodePorts_initWord, fun s => ?_⟩
  have hinit := exec_restart (.inl rfl) s
  have hreset := exec_restart (.inr rfl) s
  exact ⟨hreset.trans hinit.symm, _, hreset, rfl, rfl⟩

end Sys2Proof.Machine
end
